-- ==== Sys2Proof/Config.lean ====
section
/-! DEFINITION. What is fixed when a DWU is instantiated, and the granularity at which a step of the model shows it.
The spec leaves no result open, so there is no free value here. -/

namespace Sys2Proof

/-- The admitted limb widths: `DWU-W32` and `DWU-W64` (spec/00_scope.md R8). No other width is a configuration
(spec/93_implementation_defined.md U12), so no other can be written down. -/
inductive Width where
  | w32
  | w64
deriving DecidableEq, Repr

/-- The parameter `W` in bits (R8). -/
def Width.bits : Width → Nat
  | .w32 => 32
  | .w64 => 64

/-- The half-limb width `halfW = W/2` (R9). -/
def halfW (W : Nat) : Nat := W / 2

/-- The spec gives two views of one command (spec/46_divide.md R110, spec/92_eei_decisions.md D34): the whole command at
once, as the host sees it, and the bit-serial refinement, one bit of `DIVMOD` or `BITLEN` a step.
DESIGN CHOICE (log 6): the model holds which view its steps take. Safe: both give the same responses. -/
inductive Granularity where
  | wholeCommand
  | bitSerial
deriving DecidableEq, Repr

end Sys2Proof
end

