-- ==== Sys2Proof/Word.lean ====
section
/-! DEFINITION. The limb and the double-width value: the two data types of the DWU (spec/00_scope.md R12,
spec/10_state.md R20). -/

namespace Sys2Proof

/-- A limb: an unsigned integer of exactly `W` bits (R12). -/
abbrev Limb (W : Nat) := BitVec W

/-- The double-width value, a pair of limbs (R20). Every pair is a valid value (R22), so there is no invariant. -/
@[ext] structure DW (W : Nat) where
  low : Limb W
  high : Limb W
deriving DecidableEq, Repr

/-- The value `(low=0, high=0)`. -/
def DW.zero {W : Nat} : DW W := ⟨0#W, 0#W⟩

end Sys2Proof
end

