-- ==== Sys2Proof/Syntax.lean ====
section
/-! DEFINITION. The operations, the command and the response as records, and the written form of a command
(spec/30_encoding.md R50 to R61). -/

namespace Sys2Proof

/-- The 19 operations, one constructor per row of the opcode map (R52). Operands are fields of the command, not of the
operation: the command word is the only part of a command that is decoded (R51). -/
inductive Instr where
  | not
  | and
  | or
  | xor
  | shl
  | shr
  | eq
  | ne
  | lt
  | gt
  | le
  | ge
  | isnz
  | isz
  | add
  | sub
  | bitlen
  | mul
  | divmod
deriving DecidableEq, Repr

/-- The operand fields an operation reads: the `reads` column of R52. -/
inductive Reads where
  /-- `x` alone -/
  | x
  /-- `x` and `y` -/
  | xy
  /-- `x` and the shift amount `s` -/
  | xs
deriving DecidableEq, Repr

/-- The `reads` column of R52. -/
def Instr.reads : Instr → Reads
  | .not => .x
  | .and => .xy
  | .or => .xy
  | .xor => .xy
  | .shl => .xs
  | .shr => .xs
  | .eq => .xy
  | .ne => .xy
  | .lt => .xy
  | .gt => .xy
  | .le => .xy
  | .ge => .xy
  | .isnz => .x
  | .isz => .x
  | .add => .xy
  | .sub => .xy
  | .bitlen => .x
  | .mul => .xy
  | .divmod => .xy

/-- The result classes of R58. -/
inductive ResultClass where
  | dw
  | bool
  | int
  | pair
deriving DecidableEq, Repr

/-- The `result class` column of R52. -/
def Instr.resultClass : Instr → ResultClass
  | .not => .dw
  | .and => .dw
  | .or => .dw
  | .xor => .dw
  | .shl => .dw
  | .shr => .dw
  | .eq => .bool
  | .ne => .bool
  | .lt => .bool
  | .gt => .bool
  | .le => .bool
  | .ge => .bool
  | .isnz => .bool
  | .isz => .bool
  | .add => .dw
  | .sub => .dw
  | .bitlen => .int
  | .mul => .dw
  | .divmod => .pair

/-- A command: the six fields presented to the DWU together (R50). -/
@[ext] structure Command (W : Nat) where
  cw : BitVec 8
  aLow : Limb W
  aHigh : Limb W
  bLow : Limb W
  bHigh : Limb W
  s : Limb W
deriving DecidableEq, Repr

/-- The two failures, and all there are (spec/60_exceptions.md R128). -/
inductive Failure where
  | divByZero
  | illegalOp
deriving DecidableEq, Repr

/-- A response. A success carries the data fields of R57; a failure carries no data at all, which R58 allows and
spec/92_eei_decisions.md D10 prefers (log 8). -/
inductive Response (W : Nat) where
  | ok (r r2 : DW W) (flag : Bool)
  | failed (f : Failure)
deriving DecidableEq, Repr

/-- The status of a response (R59). -/
inductive Status where
  | ok
  | divByZero
  | illegalOp
deriving DecidableEq, Repr

/-- The response as the six fields on the response port (R57). -/
@[ext] structure ResponseFields (W : Nat) where
  status : BitVec 2
  rLow : Limb W
  rHigh : Limb W
  r2Low : Limb W
  r2High : Limb W
  flag : BitVec 1
deriving DecidableEq, Repr

/-- The operands of a written command (R61). -/
inductive OperandForm (W : Nat) where
  /-- `MNEMONIC x` -/
  | one (x : DW W)
  /-- `MNEMONIC x, y` -/
  | two (x y : DW W)
  /-- `MNEMONIC x, #s` -/
  | shift (x : DW W) (s : Limb W)
deriving DecidableEq, Repr

/-- A written command: an operation and its operands (R61). -/
structure Written (W : Nat) where
  op : Instr
  operands : OperandForm W
deriving DecidableEq, Repr

end Sys2Proof
end

