-- ==== Sys2Proof/WellFormed.lean ====
section
/-! DEFINITION. The checks: which command words are legal (spec/30_encoding.md R53, R54) and which written commands have
the operands their operation takes (R61). An `Instr` carries no operand, so there is nothing to check in one. -/

namespace Sys2Proof

/-- `cw[7:5]` must be `0b000` (R54). -/
def reservedBitsZero (cw : BitVec 8) : Bool := cw.extractLsb' 5 3 == 0b000#3

/-- The 13 reserved opcodes, as R53 lists them. -/
def reservedOpcodes : List (BitVec 5) :=
  [0b00000#5, 0b00111#5, 0b10101#5, 0b10110#5, 0b10111#5, 0b11000#5, 0b11001#5, 0b11010#5, 0b11011#5, 0b11100#5,
   0b11101#5, 0b11110#5, 0b11111#5]

/-- The opcode `cw[4:0]` selects an operation (R53). -/
def opcodeAssigned (cw : BitVec 8) : Bool := !reservedOpcodes.contains (cw.extractLsb' 0 5)

/-- A legal command word: both checks (R53, R54). -/
def legalWord (cw : BitVec 8) : Bool := reservedBitsZero cw && opcodeAssigned cw

/-- A written command has the operands its operation reads (R61, the `reads` column of R52). -/
def Written.wellFormed {W : Nat} (w : Written W) : Bool :=
  match w.op.reads, w.operands with
  | .x, .one _ => true
  | .xy, .two _ _ => true
  | .xs, .shift _ _ => true
  | .x, .two _ _ => false
  | .x, .shift _ _ => false
  | .xy, .one _ => false
  | .xy, .shift _ _ => false
  | .xs, .one _ => false
  | .xs, .two _ _ => false

end Sys2Proof
end

