-- ==== Sys2Proof/Decode.lean ====
section
/-! DEFINITION. Decoding the command word, total (spec/30_encoding.md R51 to R54, R60), and the encoder (R52, R61). -/

namespace Sys2Proof

/-- The field `rsv = cw[7:5]` (R51). -/
def rsvField (cw : BitVec 8) : BitVec 3 := cw.extractLsb' 5 3

/-- The field `op = cw[4:0]` (R51). -/
def opField (cw : BitVec 8) : BitVec 5 := cw.extractLsb' 0 5

/-- The opcode map of R52, read from opcode to operation. The opcodes that end in `none` are the 13 reserved ones (R53). -/
def decodeOp (op : BitVec 5) : Option Instr :=
  match op.toNat with
  | 0b00001 => some .not
  | 0b00010 => some .and
  | 0b00011 => some .or
  | 0b00100 => some .xor
  | 0b00101 => some .shl
  | 0b00110 => some .shr
  | 0b01000 => some .eq
  | 0b01001 => some .ne
  | 0b01010 => some .lt
  | 0b01011 => some .gt
  | 0b01100 => some .le
  | 0b01101 => some .ge
  | 0b01110 => some .isnz
  | 0b01111 => some .isz
  | 0b10000 => some .add
  | 0b10001 => some .sub
  | 0b10010 => some .bitlen
  | 0b10011 => some .mul
  | 0b10100 => some .divmod
  | _ => none

/-- The operation a command word selects; `none` where it is illegal (R53, R54). Reserved bits are looked at first, as in
R60. -/
def decode (cw : BitVec 8) : Option Instr :=
  if rsvField cw ≠ 0b000#3 then none else decodeOp (opField cw)

/-- The opcode map of R52, read from operation to opcode. -/
def Instr.opcode : Instr → BitVec 5
  | .not => 0b00001#5
  | .and => 0b00010#5
  | .or => 0b00011#5
  | .xor => 0b00100#5
  | .shl => 0b00101#5
  | .shr => 0b00110#5
  | .eq => 0b01000#5
  | .ne => 0b01001#5
  | .lt => 0b01010#5
  | .gt => 0b01011#5
  | .le => 0b01100#5
  | .ge => 0b01101#5
  | .isnz => 0b01110#5
  | .isz => 0b01111#5
  | .add => 0b10000#5
  | .sub => 0b10001#5
  | .bitlen => 0b10010#5
  | .mul => 0b10011#5
  | .divmod => 0b10100#5

/-- The command word of an operation: `rsv = 0` and the opcode (R51, R52). -/
def encode (i : Instr) : BitVec 8 := 0b000#3 ++ i.opcode

/-- The first operand, `x = (low=a_low, high=a_high)` (R50). -/
def Command.x {W : Nat} (c : Command W) : DW W := ⟨c.aLow, c.aHigh⟩

/-- The second operand, `y = (low=b_low, high=b_high)` (R50). -/
def Command.y {W : Nat} (c : Command W) : DW W := ⟨c.bLow, c.bHigh⟩

/-- The encoding of a written command: the tuple of R61, with unread fields written as zero. -/
def Written.encode {W : Nat} (w : Written W) : Command W :=
  match w.operands with
  | .one x => ⟨Sys2Proof.encode w.op, x.low, x.high, 0#W, 0#W, 0#W⟩
  | .two x y => ⟨Sys2Proof.encode w.op, x.low, x.high, y.low, y.high, 0#W⟩
  | .shift x s => ⟨Sys2Proof.encode w.op, x.low, x.high, 0#W, 0#W, s⟩

/-- The operands an operation reads from a command, and no others (R55). -/
def Reads.operandsOf {W : Nat} (r : Reads) (c : Command W) : OperandForm W :=
  match r with
  | .x => .one c.x
  | .xy => .two c.x c.y
  | .xs => .shift c.x c.s

/-- A whole command read back as a written one; `none` where its command word is illegal. -/
def Command.written {W : Nat} (c : Command W) : Option (Written W) :=
  match decode c.cw with
  | some i => some ⟨i, i.reads.operandsOf c⟩
  | none => none

/-- What the decoder reads from the opcode table's word: the table's 8 bits are the command word (R51), and the operand
fields are data that decoding never looks at. -/
def decodeTableWord (nbits w : Nat) : Option Instr := decode (BitVec.ofNat 8 (w % 2 ^ nbits))

end Sys2Proof
end

