-- ==== Sys2Proof/Machine/State.lean ====
section
/-! DEFINITION. The state of a DWU with its two ports, as plain data, and the state after reset
(spec/10_state.md, spec/70_reset_and_hazards.md). -/

namespace Sys2Proof.Machine

/-- The bit-length unit's working registers (R36): the limb that is shifted right and the count of the shifts. -/
@[ext] structure CountRegs (W : Nat) where
  limb : Limb W
  count : Nat
deriving DecidableEq, Repr

/-- The divider's working registers (R35). The index `i` is an integer in 0 to 2W. -/
@[ext] structure DivRegs (W : Nat) where
  dividend : DW W
  divisor : DW W
  quotient : DW W
  remainder : DW W
  i : Nat
deriving DecidableEq, Repr

/-- The multiplier's intermediate values (R37). They are combinational values of one command, so they are computed
inside `MUL` and no field of the state holds them (log 17). -/
structure MulParts (W : Nat) where
  x00 : Limb W
  x01 : Limb W
  y00 : Limb W
  y01 : Limb W
  p00 : Limb W
  p10 : Limb W
  p01 : Limb W
  p11 : Limb W
  mid : Limb W
  carryMid : Bool
  lower : Limb W
  carryLow : Bool
deriving DecidableEq, Repr

/-- Whether a command is in flight (R38, R47), and the transient registers of the one that is. The registers do not exist
between commands (R34), so `idle` has none. -/
inductive Work (W : Nat) where
  | idle
  | counting (r : CountRegs W)
  | dividing (d : DivRegs W)
deriving DecidableEq, Repr

/-- What the host does at one step. DESIGN CHOICE (log 3): a list of these stands for everything outside the DWU. -/
inductive HostEvent (W : Nat) where
  /-- it presents a command and goes on presenting it until the DWU accepts it (R47, R144) -/
  | command (c : Command W)
  /-- it signals reset (R140, R141) -/
  | reset
  /-- it does nothing for one step -/
  | pause
deriving DecidableEq, Repr

/-- One DWU of limb width `W`, with the host's ends of its two ports. -/
structure Dwu (W : Nat) where
  /-- which view a step takes (the model's own field, log 6) -/
  granularity : Granularity
  /-- what the host does from here on, oldest first (the model's own field, log 3) -/
  host : List (HostEvent W)
  /-- the command port: the fields of the command accepted last (R50, R43) -/
  cmd : Command W
  /-- idle, or the registers of the command in flight (R34, R38) -/
  work : Work W
  /-- the responses delivered to the host, oldest first (the model's own field, log 4) -/
  delivered : List (Response W)
deriving DecidableEq, Repr

/-- The machine: the limb width, fixed at instantiation (spec/00_scope.md R8), and the unit of that width. -/
structure State where
  width : Width
  unit : Dwu width.bits
deriving DecidableEq, Repr

/-- The DWU never faults: its two failures are responses (spec/60_exceptions.md R128, R136) and every command ends with a
response (spec/70_reset_and_hazards.md R146). So no step raises a fault and there is no reason to name (log 10). -/
inductive Fault where
deriving DecidableEq, Repr

/-- The one refusal is the host's convention for an instruction without a meaning; nothing of this model raises it, since
every operation has its meaning and an illegal command word answers `ILLEGAL_OP` (R130). -/
inductive Refusal where
  /-- raised by an arm of `exec` whose instruction has no meaning yet; none is left; safe -/
  | notModelled (mnemonic : String)
deriving DecidableEq, Repr

/-- The command port before any command was accepted. DESIGN CHOICE (log 5): all zero. -/
def portAtReset {W : Nat} : Command W := ⟨0#8, 0#W, 0#W, 0#W, 0#W, 0#W⟩

/-- A DWU right after reset: idle, no command in flight (R38, R140). -/
def Dwu.reset {W : Nat} (g : Granularity) : Dwu W := ⟨g, [], portAtReset, .idle, []⟩

/-- The machine right after reset, at either width and in either view. -/
def State.resetWith (w : Width) (g : Granularity) : State := ⟨w, Dwu.reset g⟩

/-- The machine right after reset. DESIGN CHOICE (log 2, log 6): the configuration `DWU-W32`, whole commands. -/
def State.reset : State := State.resetWith .w32 .wholeCommand

end Sys2Proof.Machine
end

