-- ==== Sys2Proof/Machine/Ops.lean ====
section
/-! DEFINITION. The limb primitives of spec/00_scope.md section 4, the double-width value as a number, and the shared
operations on the ports: accept a command, deliver a response, raise a failure, reset. -/

namespace Sys2Proof

/-! ### Limb primitives (R13 to R17) -/

/-- `add_W` (R13). -/
def addW {W : Nat} (a b : Limb W) : Limb W := a + b

/-- `sub_W` (R13). -/
def subW {W : Nat} (a b : Limb W) : Limb W := a - b

/-- `mul_W` (R14). -/
def mulW {W : Nat} (a b : Limb W) : Limb W := a * b

/-- `shl_W`, total: zero for a count of `W` or more (R15). -/
def shlW {W : Nat} (v : Limb W) (k : Nat) : Limb W := v <<< k

/-- `shr_W`, total: zero for a count of `W` or more (R15). -/
def shrW {W : Nat} (v : Limb W) (k : Nat) : Limb W := v >>> k

/-- `not_W` (R16). -/
def notW {W : Nat} (a : Limb W) : Limb W := ~~~a

/-- `and_W` (R16). -/
def andW {W : Nat} (a b : Limb W) : Limb W := a &&& b

/-- `or_W` (R16). -/
def orW {W : Nat} (a b : Limb W) : Limb W := a ||| b

/-- `xor_W` (R16). -/
def xorW {W : Nat} (a b : Limb W) : Limb W := a ^^^ b

/-- `lo_half`: the low `halfW` bits (R17). -/
def loHalf {W : Nat} (v : Limb W) : Limb W := BitVec.ofNat W (v.toNat % 2 ^ halfW W)

/-- `hi_half`: the bits from `halfW` up (R17). -/
def hiHalf {W : Nat} (v : Limb W) : Limb W := shrW v (halfW W)

/-- A Boolean used as a number: 1 for true, 0 for false (section 4). -/
def ofFlag {W : Nat} (b : Bool) : Limb W := if b then 1#W else 0#W

/-! ### The double-width value (spec/10_state.md R21, spec/20_memory.md R41) -/

/-- The number a value denotes, `high * 2^W + low` (R21). -/
def DW.val {W : Nat} (x : DW W) : Nat := x.high.toNat * 2 ^ W + x.low.toNat

/-- `dw(v)`: the pair that denotes `v mod 2^(2W)` (R19). -/
def DW.ofNat (W v : Nat) : DW W := ⟨BitVec.ofNat W v, BitVec.ofNat W (v / 2 ^ W)⟩

/-- The value on one bus of `2W` bits: `low` in the low half, `high` in the high half (R41). -/
def DW.bus {W : Nat} (x : DW W) : BitVec (W + W) := x.high ++ x.low

/-- `nonzero(x)` (R27). -/
def DW.nonzero {W : Nat} (x : DW W) : Bool := (x.low != 0#W) || (x.high != 0#W)

/-- `bit(x, k)`, chosen from the limb that holds bit `k` (spec/46_divide.md R108). -/
def DW.bit {W : Nat} (x : DW W) (k : Nat) : Bool :=
  if k < W then (shrW x.low k).toNat % 2 == 1 else (shrW x.high (k - W)).toNat % 2 == 1

/-! ### The response port (spec/30_encoding.md R57 to R59) -/

/-- The status of a response (R59). -/
def Response.status {W : Nat} : Response W → Status
  | .ok _ _ _ => .ok
  | .failed .divByZero => .divByZero
  | .failed .illegalOp => .illegalOp

/-- The status codes (R59). -/
def Status.code : Status → BitVec 2
  | .ok => 0b00#2
  | .divByZero => 0b01#2
  | .illegalOp => 0b10#2

/-- The status a code stands for; `0b11` stands for none (R59, spec/93_implementation_defined.md U9). -/
def Status.ofCode (c : BitVec 2) : Option Status :=
  match c.toNat with
  | 0b00 => some .ok
  | 0b01 => some .divByZero
  | 0b10 => some .illegalOp
  | _ => none

/-- The six fields on the port: a failure shows its status and zeros (R57, R58). -/
def Response.wires {W : Nat} (p : Response W) : ResponseFields W :=
  match p with
  | .ok r r2 flag => ⟨p.status.code, r.low, r.high, r2.low, r2.high, BitVec.ofBool flag⟩
  | .failed _ => ⟨p.status.code, 0#W, 0#W, 0#W, 0#W, 0#1⟩

/-- Class DW: the result in `r` (R58). -/
def Response.ofDW {W : Nat} (r : DW W) : Response W := .ok r DW.zero false

/-- Class BOOL: the result in `flag` (R58). -/
def Response.ofBool {W : Nat} (b : Bool) : Response W := .ok DW.zero DW.zero b

/-- Class INT: the integer in the low limb of `r` (R58). -/
def Response.ofInt {W : Nat} (n : Nat) : Response W := .ok ⟨BitVec.ofNat W n, 0#W⟩ DW.zero false

/-- Class PAIR: quotient in `r`, remainder in `r2` (R58). -/
def Response.ofPair {W : Nat} (q r : DW W) : Response W := .ok q r false

namespace Machine

/-! ### Shared operations on a unit and its ports -/

/-- No command is in flight (R38). -/
def Dwu.isIdle {W : Nat} (u : Dwu W) : Bool :=
  match u.work with
  | .idle => true
  | .counting _ => false
  | .dividing _ => false

/-- The host's list moves on. -/
def Dwu.withHost {W : Nat} (u : Dwu W) (h : List (HostEvent W)) : Dwu W := { u with host := h }

/-- A command is accepted: all its fields at once (R43). -/
def Dwu.accept {W : Nat} (u : Dwu W) (c : Command W) : Dwu W := { u with cmd := c }

/-- A response is delivered (R43). -/
def Dwu.deliver {W : Nat} (u : Dwu W) (p : Response W) : Dwu W := { u with delivered := u.delivered ++ [p] }

/-- The working registers change; with `.idle` they cease to exist (R34). -/
def Dwu.withWork {W : Nat} (u : Dwu W) (k : Work W) : Dwu W := { u with work := k }

/-- FAILURE ENTRY, the DWU's only form of taking an exception (spec/60_exceptions.md R136): nothing changes but the
response. There is no return from it: the unit is ready for the next command (R137). -/
def Dwu.raise {W : Nat} (u : Dwu W) (f : Failure) : Dwu W := u.deliver (.failed f)

/-- The reset event: the command in flight is aborted with no response, its registers are abandoned, the unit is idle
(spec/70_reset_and_hazards.md R140, R141). DEDUCED (log 11): nothing else changes. Safe. -/
def Dwu.abort {W : Nat} (u : Dwu W) : Dwu W := u.withWork .idle

/-- `Dwu.deliver` on the machine. -/
def State.deliver (s : State) (p : Response s.width.bits) : State := { s with unit := s.unit.deliver p }

/-- `Dwu.withWork` on the machine. -/
def State.withWork (s : State) (k : Work s.width.bits) : State := { s with unit := s.unit.withWork k }

/-- `Dwu.raise` on the machine. -/
def State.raise (s : State) (f : Failure) : State := { s with unit := s.unit.raise f }

end Machine
end Sys2Proof
end

