-- ==== Sys2Proof/Machine/Operands.lean ====
section
/-! DEFINITION. The operand forms: how an operation reads its operands from the command port, and how a host constructs
an operand and reads a result (spec/10_state.md R24 to R26, spec/30_encoding.md R50, R56). -/

namespace Sys2Proof

/-- The shift amount: the `W` bits of `s` as an unsigned count, reduced by nothing (R56, spec/41_shift.md R75). -/
def Command.amount {W : Nat} (c : Command W) : Nat := c.s.toNat

/-- `fromLimbs(l, h)` (R24). -/
def fromLimbs {W : Nat} (l h : Limb W) : DW W := ⟨l, h⟩

/-- `fromNative(v)` for a native value of `n` bits, zero-extended (R25). A value wider than a limb has no meaning
(spec/93_implementation_defined.md U13), so `none`. -/
def fromNative (W : Nat) {n : Nat} (v : BitVec n) : Option (DW W) :=
  if n ≤ W then some (fromLimbs (v.setWidth W) 0#W) else none

/-- The accessors read the limb fields of the response port (R26): `low(r)`, `high(r)`, and the same of `r2`. -/
def ResponseFields.r {W : Nat} (f : ResponseFields W) : DW W := fromLimbs f.rLow f.rHigh

/-- The secondary result on the response port (R57). -/
def ResponseFields.r2 {W : Nat} (f : ResponseFields W) : DW W := fromLimbs f.r2Low f.r2High

namespace Machine

/-- The first operand of the command on the port (R50). -/
def State.x (s : State) : DW s.width.bits := s.unit.cmd.x

/-- The second operand of the command on the port (R50). -/
def State.y (s : State) : DW s.width.bits := s.unit.cmd.y

end Machine
end Sys2Proof
end

