-- ==== Sys2Proof/Machine/Flags.lean ====
section
/-! DEFINITION. The Boolean signals: the carries and the borrow, internal to one command (spec/43_additive.md R90, R91,
R93, spec/45_multiply.md R100), and the comparison Booleans that go into `resp.flag` (spec/42_relational.md R80 to R87).
The DWU stores none of them (spec/10_state.md R31). -/

namespace Sys2Proof

/-- The carry of a wrapping addition, found by comparing the sum with a summand (R90; R100 for the multiplier's two). -/
def carryOf {W : Nat} (sum summand : Limb W) : Bool := sum.toNat < summand.toNat

/-- The borrow of a wrapping subtraction, found by comparing the difference with the minuend (R91). -/
def borrowOf {W : Nat} (diff minuend : Limb W) : Bool := minuend.toNat < diff.toNat

/-- `eq(x, y)`: both limbs equal (R80). -/
def DW.eqFlag {W : Nat} (x y : DW W) : Bool := (x.low == y.low) && (x.high == y.high)

/-- `lt(x, y)`: the high limb first, on a tie the low limb, unsigned (R82). -/
def DW.ltFlag {W : Nat} (x y : DW W) : Bool :=
  decide (x.high.toNat < y.high.toNat) || ((x.high == y.high) && decide (x.low.toNat < y.low.toNat))

/-- `ge(x, y)`: not `lt(x, y)` (R85). -/
def DW.geFlag {W : Nat} (x y : DW W) : Bool := !DW.ltFlag x y

end Sys2Proof
end

