-- ==== Sys2Proof/Machine/Additive.lean ====
section
/-! DEFINITION. The double-width adder and subtractor: `ADD`, `SUB` (spec/43_additive.md R90 to R94). -/

namespace Sys2Proof

/-- R90: the carry of the low stage goes into the high stage, the carry out of the high stage is discarded. -/
def DW.add {W : Nat} (x y : DW W) : DW W :=
  let newLow := addW x.low y.low
  ⟨newLow, addW (addW x.high y.high) (ofFlag (carryOf newLow x.low))⟩

/-- R91: the borrow of the low stage goes into the high stage, the borrow out of the high stage is discarded. -/
def DW.sub {W : Nat} (x y : DW W) : DW W :=
  let newLow := subW x.low y.low
  ⟨newLow, subW (subW x.high y.high) (ofFlag (borrowOf newLow x.low))⟩

namespace Machine

/-- The response of `ADD` (R90). -/
def respondAdd {W : Nat} (c : Command W) : Response W := .ofDW (c.x.add c.y)

/-- The response of `SUB` (R91). -/
def respondSub {W : Nat} (c : Command W) : Response W := .ofDW (c.x.sub c.y)

/-- `ADD` (R90). -/
def execAdd (s : State) : Host.Outcome State Fault Refusal := .next (s.deliver (respondAdd s.unit.cmd))

/-- `SUB` (R91). -/
def execSub (s : State) : Host.Outcome State Fault Refusal := .next (s.deliver (respondSub s.unit.cmd))

end Machine
end Sys2Proof
end

