-- ==== Sys2Proof/Machine/BitLength.lean ====
section
/-! DEFINITION. The bit-length counter: `BITLEN`, whole and one shift a step (spec/44_bitlength.md R95 to R97,
spec/10_state.md R36). -/

namespace Sys2Proof

/-- The loop of R95. The first argument bounds the number of shifts: `W` are always enough. -/
def limbBitlenLoop {W : Nat} : Nat → Limb W → Nat → Nat
  | 0, _, n => n
  | k + 1, v, n => if v = 0#W then n else limbBitlenLoop k (shrW v 1) (n + 1)

/-- `limb_bitlen(v)`: the number of one-bit right shifts that bring `v` to zero (R95). -/
def limbBitlen {W : Nat} (v : Limb W) : Nat := limbBitlenLoop W v 0

/-- `bitLength(x)` (R96). The divider uses this same function (R97). -/
def DW.bitLength {W : Nat} (x : DW W) : Nat :=
  if x.high ≠ 0#W then W + limbBitlen x.high else limbBitlen x.low

namespace Machine

/-- The response of `BITLEN` (R96). -/
def respondBitlen {W : Nat} (c : Command W) : Response W := .ofInt c.x.bitLength

/-- The registers when a `BITLEN` is accepted: the limb to count in, and no shift yet (R36, R96). -/
def countInit {W : Nat} (x : DW W) : CountRegs W := ⟨if x.high ≠ 0#W then x.high else x.low, 0⟩

/-- One shift, counted (R36, R95). -/
def countIter {W : Nat} (r : CountRegs W) : CountRegs W := ⟨shrW r.limb 1, r.count + 1⟩

/-- The bit length, when the shifter has come to zero after the counted shifts (R96). -/
def countResult {W : Nat} (x : DW W) (r : CountRegs W) : Nat :=
  if x.high ≠ 0#W then W + r.count else r.count

/-- One internal step of a `BITLEN` in flight: a shift while the limb is not zero, then the response.
DEDUCED (log 7): the spec names the registers and the loop, not the step that accepts nor the one that delivers. Safe. -/
def Dwu.advanceCount {W : Nat} (u : Dwu W) (r : CountRegs W) : Dwu W :=
  if r.limb = 0#W then (u.withWork .idle).deliver (.ofInt (countResult u.cmd.x r))
  else u.withWork (.counting (countIter r))

/-- `BITLEN` (R96): the whole command, or its first internal step. -/
def execBitlen (s : State) : Host.Outcome State Fault Refusal :=
  match s.unit.granularity with
  | .wholeCommand => .next (s.deliver (respondBitlen s.unit.cmd))
  | .bitSerial => .next (s.withWork (.counting (countInit s.x)))

end Machine
end Sys2Proof
end

