-- ==== Sys2Proof/Machine/Bitwise.lean ====
section
/-! DEFINITION. The bitwise logic array: `NOT`, `AND`, `OR`, `XOR` (spec/40_bitwise.md R70 to R74). -/

namespace Sys2Proof

/-- R70. -/
def DW.not {W : Nat} (x : DW W) : DW W := ⟨notW x.low, notW x.high⟩

/-- R71. -/
def DW.and {W : Nat} (x y : DW W) : DW W := ⟨andW x.low y.low, andW x.high y.high⟩

/-- R72. -/
def DW.or {W : Nat} (x y : DW W) : DW W := ⟨orW x.low y.low, orW x.high y.high⟩

/-- R73. -/
def DW.xor {W : Nat} (x y : DW W) : DW W := ⟨xorW x.low y.low, xorW x.high y.high⟩

namespace Machine

/-- The response of `NOT` (R70). -/
def respondNot {W : Nat} (c : Command W) : Response W := .ofDW c.x.not

/-- The response of `AND` (R71). -/
def respondAnd {W : Nat} (c : Command W) : Response W := .ofDW (c.x.and c.y)

/-- The response of `OR` (R72). -/
def respondOr {W : Nat} (c : Command W) : Response W := .ofDW (c.x.or c.y)

/-- The response of `XOR` (R73). -/
def respondXor {W : Nat} (c : Command W) : Response W := .ofDW (c.x.xor c.y)

/-- `NOT` (R70). -/
def execNot (s : State) : Host.Outcome State Fault Refusal := .next (s.deliver (respondNot s.unit.cmd))

/-- `AND` (R71). -/
def execAnd (s : State) : Host.Outcome State Fault Refusal := .next (s.deliver (respondAnd s.unit.cmd))

/-- `OR` (R72). -/
def execOr (s : State) : Host.Outcome State Fault Refusal := .next (s.deliver (respondOr s.unit.cmd))

/-- `XOR` (R73). -/
def execXor (s : State) : Host.Outcome State Fault Refusal := .next (s.deliver (respondXor s.unit.cmd))

end Machine
end Sys2Proof
end

