-- ==== Sys2Proof/Machine/Shift.lean ====
section
/-! DEFINITION. The shifter: `SHL`, `SHR`, defined for every amount (spec/41_shift.md R75 to R79). -/

namespace Sys2Proof

/-- R76, with the source's two formulas. -/
def DW.shl {W : Nat} (x : DW W) (s : Nat) : DW W :=
  if s > W then ⟨0#W, shlW x.low (s - W)⟩
  else ⟨shlW x.low s, orW (shlW x.high s) (shrW x.low (W - s))⟩

/-- R77, the mirror image of R76. -/
def DW.shr {W : Nat} (x : DW W) (s : Nat) : DW W :=
  if s > W then ⟨shrW x.high (s - W), 0#W⟩
  else ⟨orW (shrW x.low s) (shlW x.high (W - s)), shrW x.high s⟩

namespace Machine

/-- The response of `SHL` (R76). -/
def respondShl {W : Nat} (c : Command W) : Response W := .ofDW (c.x.shl c.amount)

/-- The response of `SHR` (R77). -/
def respondShr {W : Nat} (c : Command W) : Response W := .ofDW (c.x.shr c.amount)

/-- `SHL` (R76). -/
def execShl (s : State) : Host.Outcome State Fault Refusal := .next (s.deliver (respondShl s.unit.cmd))

/-- `SHR` (R77). -/
def execShr (s : State) : Host.Outcome State Fault Refusal := .next (s.deliver (respondShr s.unit.cmd))

end Machine
end Sys2Proof
end

