-- ==== Sys2Proof/Machine/Divide.lean ====
section
/-! DEFINITION. The binary long-division unit: `DIVMOD`, whole and bit-serial (spec/46_divide.md R107 to R118). -/

namespace Sys2Proof

/-- The divisor test of R107: `(y.low == 0) && (y.high == 0)`. -/
def DW.isZero {W : Nat} (y : DW W) : Bool := (y.low == 0#W) && (y.high == 0#W)

/-- `remainder.low <- or_W(remainder.low, 1)`: set the lowest bit (R107). -/
def DW.setBit0 {W : Nat} (v : DW W) : DW W := ⟨orW v.low 1#W, v.high⟩

/-- `shl1(v)`, which is `SHL v, #1` (R107). -/
def DW.shl1 {W : Nat} (v : DW W) : DW W := v.shl 1

namespace Machine

/-- The remainder of one iteration after its shift and the insertion of the dividend bit, before the comparison (R107). -/
def shiftedRemainder {W : Nat} (remainder : DW W) (bit : Bool) : DW W :=
  if bit then remainder.shl1.setBit0 else remainder.shl1

/-- The body of the loop of R107 on quotient and remainder, in program order: shift both, insert the dividend bit, compare,
subtract. -/
def divBody {W : Nat} (divisor quotient remainder : DW W) (bit : Bool) : DW W × DW W :=
  let r := shiftedRemainder remainder bit
  if r.geFlag divisor then (quotient.shl1.setBit0, r.sub divisor) else (quotient.shl1, r)

/-- The loop of R107 from index `i` down to 1, on the pair of quotient and remainder. -/
def divLoop {W : Nat} (x y : DW W) : Nat → DW W × DW W → DW W × DW W
  | 0, qr => qr
  | i + 1, qr => divLoop x y i (divBody y qr.1 qr.2 (x.bit i))

/-- The response of `DIVMOD` (R107, R114): the divisor is tested before anything else. -/
def respondDivmod {W : Nat} (c : Command W) : Response W :=
  if c.y.isZero then .failed .divByZero
  else
    let qr := divLoop c.x c.y c.x.bitLength (DW.zero, DW.zero)
    .ofPair qr.1 qr.2

/-- The registers DIV_INIT sets (R111). -/
def divInit {W : Nat} (x y : DW W) : DivRegs W := ⟨x, y, DW.zero, DW.zero, x.bitLength⟩

/-- DIV_ITER: one iteration, then the index goes down (R112). -/
def divIter {W : Nat} (d : DivRegs W) : DivRegs W :=
  let qr := divBody d.divisor d.quotient d.remainder (d.dividend.bit (d.i - 1))
  ⟨d.dividend, d.divisor, qr.1, qr.2, d.i - 1⟩

/-- One internal step of a `DIVMOD` in flight: DIV_DONE when the index is 0 (R113), else DIV_ITER (R112). -/
def Dwu.advanceDivide {W : Nat} (u : Dwu W) (d : DivRegs W) : Dwu W :=
  if d.i = 0 then (u.withWork .idle).deliver (.ofPair d.quotient d.remainder)
  else u.withWork (.dividing (divIter d))

/-- `DIVMOD` (R107). A zero divisor ends the command at once in either view (R111, R114); else the whole command, or its
DIV_INIT step (R111). -/
def execDivmod (s : State) : Host.Outcome State Fault Refusal :=
  if s.y.isZero then .next (s.raise .divByZero)
  else
    match s.unit.granularity with
    | .wholeCommand => .next (s.deliver (respondDivmod s.unit.cmd))
    | .bitSerial => .next (s.withWork (.dividing (divInit s.x s.y)))

end Machine
end Sys2Proof
end

