-- ==== Sys2Proof/Machine/Multiply.lean ====
section
/-! DEFINITION. The schoolbook multiplier: `MUL` by the 2x2 half-limb decomposition (spec/45_multiply.md R100 to R103). -/

namespace Sys2Proof

namespace Machine

/-- Steps 1 to 4 of R100: half limbs, half-limb products, the cross terms, the low limb, and the two carries. -/
def mulParts {W : Nat} (x y : DW W) : MulParts W :=
  let x00 := loHalf x.low
  let x01 := hiHalf x.low
  let y00 := loHalf y.low
  let y01 := hiHalf y.low
  let p00 := mulW x00 y00
  let p10 := mulW x01 y00
  let p01 := mulW x00 y01
  let p11 := mulW x01 y01
  let mid := addW p10 p01
  let lower := addW p00 (shlW mid (halfW W))
  ⟨x00, x01, y00, y01, p00, p10, p01, p11, mid, carryOf mid p01, lower, carryOf lower p00⟩

/-- Step 5 of R100: the high limb. The carry of `mid` has weight `2^halfW` there (spec/90_conflicts.md C3), the carry of
the low limb weight 1. -/
def mulUpper {W : Nat} (x y : DW W) (m : MulParts W) : Limb W :=
  let u1 := mulW x.high y.low
  let u2 := addW u1 (mulW x.low y.high)
  let u3 := addW u2 m.p11
  let u4 := addW u3 (shrW m.mid (halfW W))
  let u5 := addW u4 (shlW (ofFlag m.carryMid) (halfW W))
  addW u5 (ofFlag m.carryLow)

end Machine

/-- The product, low `2W` bits (R100). -/
def DW.mul {W : Nat} (x y : DW W) : DW W :=
  ⟨(Machine.mulParts x y).lower, Machine.mulUpper x y (Machine.mulParts x y)⟩

namespace Machine

/-- The response of `MUL` (R100). -/
def respondMul {W : Nat} (c : Command W) : Response W := .ofDW (c.x.mul c.y)

/-- `MUL` (R100). -/
def execMul (s : State) : Host.Outcome State Fault Refusal := .next (s.deliver (respondMul s.unit.cmd))

end Machine
end Sys2Proof
end

