-- ==== Sys2Proof/Machine/Relational.lean ====
section
/-! DEFINITION. The comparator: `EQ`, `NE`, `LT`, `GT`, `LE`, `GE`, `ISNZ`, `ISZ` (spec/42_relational.md R80 to R88). The
compositions are those the spec fixes (spec/92_eei_decisions.md D23). -/

namespace Sys2Proof.Machine

/-- The response of `EQ` (R80). -/
def respondEq {W : Nat} (c : Command W) : Response W := .ofBool (c.x.eqFlag c.y)

/-- The response of `NE` (R81). -/
def respondNe {W : Nat} (c : Command W) : Response W := .ofBool (!c.x.eqFlag c.y)

/-- The response of `LT` (R82). -/
def respondLt {W : Nat} (c : Command W) : Response W := .ofBool (c.x.ltFlag c.y)

/-- The response of `GT` (R83). -/
def respondGt {W : Nat} (c : Command W) : Response W := .ofBool (!(c.x.ltFlag c.y || c.x.eqFlag c.y))

/-- The response of `LE` (R84). -/
def respondLe {W : Nat} (c : Command W) : Response W := .ofBool (c.x.ltFlag c.y || c.x.eqFlag c.y)

/-- The response of `GE` (R85). -/
def respondGe {W : Nat} (c : Command W) : Response W := .ofBool (c.x.geFlag c.y)

/-- The response of `ISNZ` (R86). -/
def respondIsnz {W : Nat} (c : Command W) : Response W := .ofBool c.x.nonzero

/-- The response of `ISZ` (R87). -/
def respondIsz {W : Nat} (c : Command W) : Response W := .ofBool ((c.x.low == 0#W) && (c.x.high == 0#W))

/-- `EQ` (R80). -/
def execEq (s : State) : Host.Outcome State Fault Refusal := .next (s.deliver (respondEq s.unit.cmd))

/-- `NE` (R81). -/
def execNe (s : State) : Host.Outcome State Fault Refusal := .next (s.deliver (respondNe s.unit.cmd))

/-- `LT` (R82). -/
def execLt (s : State) : Host.Outcome State Fault Refusal := .next (s.deliver (respondLt s.unit.cmd))

/-- `GT` (R83). -/
def execGt (s : State) : Host.Outcome State Fault Refusal := .next (s.deliver (respondGt s.unit.cmd))

/-- `LE` (R84). -/
def execLe (s : State) : Host.Outcome State Fault Refusal := .next (s.deliver (respondLe s.unit.cmd))

/-- `GE` (R85). -/
def execGe (s : State) : Host.Outcome State Fault Refusal := .next (s.deliver (respondGe s.unit.cmd))

/-- `ISNZ` (R86). -/
def execIsnz (s : State) : Host.Outcome State Fault Refusal := .next (s.deliver (respondIsnz s.unit.cmd))

/-- `ISZ` (R87). -/
def execIsz (s : State) : Host.Outcome State Fault Refusal := .next (s.deliver (respondIsz s.unit.cmd))

end Sys2Proof.Machine
end

