-- ==== Sys2Proof/Machine/Sequencer.lean ====
section
/-! DEFINITION. What one step does: read the host's next event, accept a command when idle, carry on with a command in
flight, obey a reset (spec/20_memory.md R43, R47, spec/70_reset_and_hazards.md R140, R141, R144). -/

namespace Sys2Proof.Machine

/-- The unit does its own part of a step: an idle one stays as it is (DEDUCED, log 9; safe), a busy one takes one internal
step of the command in flight. -/
def Dwu.advance {W : Nat} (u : Dwu W) : Dwu W :=
  match u.work with
  | .idle => u
  | .counting r => u.advanceCount r
  | .dividing d => u.advanceDivide d

/-- `Dwu.advance` on the machine. -/
def State.advance (s : State) : State := { s with unit := s.unit.advance }

/-- `Dwu.withHost` on the machine. -/
def State.withHost (s : State) (h : List (HostEvent s.width.bits)) : State := { s with unit := s.unit.withHost h }

/-- `Dwu.abort` on the machine. -/
def State.abort (s : State) : State := { s with unit := s.unit.abort }

/-- The machine when it has just accepted `c`, the rest of the host's events still to come. -/
def State.accept (s : State) (c : Command s.width.bits) (rest : List (HostEvent s.width.bits)) : State :=
  { s with unit := (s.unit.withHost rest).accept c }

/-- The command on the port runs: decoded, or answered `ILLEGAL_OP` (spec/30_encoding.md R60, spec/60_exceptions.md
R130, R135). -/
def State.runCommand (s : State) : Host.Outcome State Fault Refusal :=
  match decode s.unit.cmd.cw with
  | some i => exec i s
  | none => .next (s.raise .illegalOp)

/-- One step. A command is accepted only by an idle unit; a busy one leaves it with the host and carries on (R47, R144). -/
def State.sequence (s : State) : Host.Outcome State Fault Refusal :=
  match s.unit.host with
  | [] => .next s.advance
  | .pause :: rest => .next (s.withHost rest).advance
  | .reset :: rest => .next (s.withHost rest).abort
  | .command c :: rest => if s.unit.isIdle then (s.accept c rest).runCommand else .next s.advance

/-- The host presents a command next, before anything else it had in mind. -/
def State.present (s : State) (c : Command s.width.bits) : State := s.withHost (.command c :: s.unit.host)

/-- The command of a bare command word: every operand field zero. -/
def wordCommand {W : Nat} (nbits w : Nat) : Command W :=
  ⟨BitVec.ofNat 8 (w % 2 ^ nbits), 0#W, 0#W, 0#W, 0#W, 0#W⟩

end Sys2Proof.Machine
end

