-- ==== Sys2Proof/Machine/Step.lean ====
section
/-! DEFINITION. The step function, and how the host places an instruction (log 16). -/

namespace Sys2Proof.Machine

/-- One step of the machine. -/
def step (s : State) : Host.Outcome State Fault Refusal := s.sequence

/-- The machine with the instruction's command presented next and no command in flight, so that the very next step accepts
and runs it. The DWU fetches nothing: its commands come from the host (spec/10_state.md R30). -/
def State.withFetchWord (s : State) (nbits w : Nat) : State := s.abort.present (wordCommand nbits w)

end Sys2Proof.Machine
end

