-- ==== Sys2Proof/Machine/Assembly.lean ====
section
/-! DEFINITION. The names of the operations and the assembler's reading of a written command (spec/30_encoding.md R52, R61,
R62). -/

namespace Sys2Proof

/-- The mnemonic column of R52. -/
def Instr.mnemonic : Instr → String
  | .not => "NOT"
  | .and => "AND"
  | .or => "OR"
  | .xor => "XOR"
  | .shl => "SHL"
  | .shr => "SHR"
  | .eq => "EQ"
  | .ne => "NE"
  | .lt => "LT"
  | .gt => "GT"
  | .le => "LE"
  | .ge => "GE"
  | .isnz => "ISNZ"
  | .isz => "ISZ"
  | .add => "ADD"
  | .sub => "SUB"
  | .bitlen => "BITLEN"
  | .mul => "MUL"
  | .divmod => "DIVMOD"

/-- The `source form` column of R52: the source's operator or function. -/
def Instr.sourceForm : Instr → String
  | .not => "~x"
  | .and => "x & y"
  | .or => "x | y"
  | .xor => "x ^ y"
  | .shl => "x << s"
  | .shr => "x >> s"
  | .eq => "x == y"
  | .ne => "x != y"
  | .lt => "x < y"
  | .gt => "x > y"
  | .le => "x <= y"
  | .ge => "x >= y"
  | .isnz => "isNonZero(x)"
  | .isz => "isZero(x)"
  | .add => "x + y"
  | .sub => "x - y"
  | .bitlen => "bitLength(x)"
  | .mul => "x * y"
  | .divmod => "divmod(x, y)"

/-- The operations in the order of R52. -/
def allInstrs : List Instr :=
  [.not, .and, .or, .xor, .shl, .shr, .eq, .ne, .lt, .gt, .le, .ge, .isnz, .isz, .add, .sub, .bitlen, .mul, .divmod]

/-- The method names the source gives, and no others (R62, spec/91_not_in_source.md N10). -/
def methodNames : List (String × Instr) :=
  [("add", .add), ("sub", .sub), ("mul", .mul), ("divmod", .divmod), ("shiftLeft", .shl), ("shiftRight", .shr),
   ("bitAnd", .and)]

/-- The operation a mnemonic names. -/
def instrNamed (m : String) : Option Instr := allInstrs.find? fun i => i.mnemonic == m

/-- A line `MNEMONIC operands` as a command (R61); `none` where the mnemonic names no operation or the operands are not the
ones it takes. -/
def assemble {W : Nat} (m : String) (operands : OperandForm W) : Option (Command W) :=
  match instrNamed m with
  | some i => if (Written.mk i operands).wellFormed then some (Written.mk i operands).encode else none
  | none => none

end Sys2Proof
end

