-- ==== Sys2Proof/Machine/Respond.lean ====
section
/-! DEFINITION. The response to a command as a function of the command alone: the procedure `exec(W, cmd)` of
spec/30_encoding.md R60. The machine's steps do not go through it; that they deliver it is a statement about them. The
host sequences of spec/47_derived_rendering.md are written over it. -/

namespace Sys2Proof.Machine

/-- The response of a decoded operation to a command. -/
def respondInstr {W : Nat} (i : Instr) (c : Command W) : Response W :=
  match i with
  | .not => respondNot c
  | .and => respondAnd c
  | .or => respondOr c
  | .xor => respondXor c
  | .shl => respondShl c
  | .shr => respondShr c
  | .eq => respondEq c
  | .ne => respondNe c
  | .lt => respondLt c
  | .gt => respondGt c
  | .le => respondLe c
  | .ge => respondGe c
  | .isnz => respondIsnz c
  | .isz => respondIsz c
  | .add => respondAdd c
  | .sub => respondSub c
  | .bitlen => respondBitlen c
  | .mul => respondMul c
  | .divmod => respondDivmod c

/-- `exec(W, cmd)` (R60): decode first, then the rule of the operation. -/
def respond {W : Nat} (c : Command W) : Response W :=
  match decode c.cw with
  | some i => respondInstr i c
  | none => .failed .illegalOp

end Sys2Proof.Machine
end

