-- ==== Sys2Proof/Machine/HostSequences.lean ====
section
/-! DEFINITION. The host sequences the spec derives from the DWU's operations (spec/47_derived_rendering.md R120 to R127):
no operation of the DWU, nothing of its state. -/

namespace Sys2Proof.Machine

/-- The command `ISNZ v` (spec/30_encoding.md R61). -/
def isnzCommand {W : Nat} (v : DW W) : Command W := (Written.mk .isnz (.one v)).encode

/-- The command `DIVMOD v, (low=10, high=0)`. -/
def divTenCommand {W : Nat} (v : DW W) : Command W := (Written.mk .divmod (.two v ⟨10#W, 0#W⟩)).encode

/-- The loop of R120, appending the remainder's low limb each time round. The first argument bounds the rounds: a value has
no more decimal digits than bits. A failed response would end it (DEDUCED, log 14: the divisor is never zero). Safe. -/
def decimalLoop {W : Nat} : Nat → DW W → List (Limb W) → List (Limb W)
  | 0, _, digits => digits
  | k + 1, v, digits =>
    match respond (isnzCommand v) with
    | .failed _ => digits
    | .ok _ _ flag =>
      if flag then
        match respond (divTenCommand v) with
        | .failed _ => digits
        | .ok q r _ => decimalLoop k q (digits ++ [r.low])
      else digits

/-- The digits of `toDecimalString(x)`, most significant first (R120). Zero gives no digit (R121). -/
def decimalDigits {W : Nat} (x : DW W) : List (Limb W) := (decimalLoop (2 * W) x []).reverse

/-- A number below 16 as its digit, in the case `HEX_UPPERCASE` asks for (R126, an open parameter of the host). -/
def hexDigit (hexUppercase : Bool) (n : Nat) : Char :=
  if n < 10 then Char.ofNat ('0'.toNat + n)
  else if hexUppercase then Char.ofNat ('A'.toNat + (n - 10)) else Char.ofNat ('a'.toNat + (n - 10))

/-- `toDecimalString(x)` (R120). DESIGN CHOICE (log 15): the characters are Lean's; the spec leaves their code open. -/
def toDecimalString {W : Nat} (x : DW W) : List Char := (decimalDigits x).map fun d => hexDigit false d.toNat

/-- One limb as `n` hexadecimal digits, zero-padded on the left. -/
def hexField {W : Nat} (hexUppercase : Bool) (v : Limb W) : Nat → List Char
  | 0 => []
  | k + 1 => hexDigit hexUppercase ((shrW v (4 * k)).toNat % 16) :: hexField hexUppercase v k

/-- `toDebugHex(x)`: `high`, one space, `low`, each of `W/4` digits (R125). -/
def toDebugHex {W : Nat} (hexUppercase : Bool) (x : DW W) : List Char :=
  hexField hexUppercase x.high (W / 4) ++ ' ' :: hexField hexUppercase x.low (W / 4)

end Sys2Proof.Machine
end

