-- ==== Sys2Proof/Safety.lean ====
section
/-! DEFINITION. The words the statements use: runs, what the host may do meanwhile, the steps a command still needs, and
the invariant of the machine. -/

namespace Sys2Proof.Machine

/-- `k` steps of the machine. -/
def run (k : Nat) (s : State) : Host.Outcome State Fault Refusal := Host.Core.run Sys2Proof.core k s

/-- The host's next event, if any, is a command: no reset and no pause comes first. While such a unit is busy its host can
only wait (spec/20_memory.md R47). -/
def Dwu.hostWaits {W : Nat} (u : Dwu W) : Bool :=
  match u.host with
  | [] => true
  | .command _ :: _ => true
  | .reset :: _ => false
  | .pause :: _ => false

/-- The internal steps the command in flight still needs, the delivering one included (spec/70_reset_and_hazards.md R146 to
R148). -/
def Work.remaining {W : Nat} : Work W → Nat
  | .idle => 0
  | .counting r => limbBitlen r.limb + 1
  | .dividing d => d.i + 1

/-- Quotient and remainder after the first `m` iterations of the division loop, which starts at zero and zero with the index
`bitLength(x)` (spec/46_divide.md R107). -/
def divAfter {W : Nat} (x y : DW W) : Nat → DW W × DW W
  | 0 => (DW.zero, DW.zero)
  | m + 1 => divBody y (divAfter x y m).1 (divAfter x y m).2 (x.bit (x.bitLength - (m + 1)))

/-- A `BITLEN` in flight: the shifts made and those to come add up to the bit length of the operand
(spec/44_bitlength.md R95, R96). -/
structure CountInv {W : Nat} (u : Dwu W) (r : CountRegs W) : Prop where
  serial : u.granularity = .bitSerial
  command : decode u.cmd.cw = some .bitlen
  countBound : r.count ≤ W
  length : countResult u.cmd.x ⟨r.limb, r.count + limbBitlen r.limb⟩ = u.cmd.x.bitLength

/-- A `DIVMOD` in flight: the loop invariant of spec/46_divide.md R109 with the dividend bits consumed so far, and the
index in its range (spec/10_state.md R35). -/
structure DivInv {W : Nat} (u : Dwu W) (d : DivRegs W) : Prop where
  serial : u.granularity = .bitSerial
  command : decode u.cmd.cw = some .divmod
  dividendIsX : d.dividend = u.cmd.x
  divisorIsY : d.divisor = u.cmd.y
  divisorNonzero : 0 < d.divisor.val
  indexBound : d.i ≤ d.dividend.bitLength
  consumed : d.dividend.val / 2 ^ d.i = d.quotient.val * d.divisor.val + d.remainder.val
  remainderBelow : d.remainder.val < d.divisor.val

/-- The invariant: an idle unit has nothing to keep, a busy one keeps what its command in flight needs. -/
def Dwu.Inv {W : Nat} (u : Dwu W) : Prop :=
  match u.work with
  | .idle => True
  | .counting r => CountInv u r
  | .dividing d => DivInv u d

/-- The invariant of the machine. -/
def State.Inv (s : State) : Prop := s.unit.Inv

end Sys2Proof.Machine
end

