-- ==== Sys2Proof/Certificates/Slice0/Obligations.lean ====
section
/-! DEFINITION. The statements for the provers. `w` is the limb width (32 or 64), `u` a unit of that width in any state, so
`⟨w, u⟩` is any machine. A response is read where the model puts it, at the end of `delivered` (log 4). A next state is
written out whole, so each result statement is the frame of its operation too: every field not named keeps its value. -/

open Sys2Proof Sys2Proof.Machine

/-! ### Encoding and decoding (spec/30_encoding.md) -/

/-- R52's table, row by row: `cw`, `op`, mnemonic, source form, fields read, result class, operation. -/
def Sys2Proof.opcodeMap : List (BitVec 8 × BitVec 5 × String × String × Reads × ResultClass × Instr) :=
  [(0x01#8, 0b00001#5, "NOT", "~x", .x, .dw, .not),
   (0x02#8, 0b00010#5, "AND", "x & y", .xy, .dw, .and),
   (0x03#8, 0b00011#5, "OR", "x | y", .xy, .dw, .or),
   (0x04#8, 0b00100#5, "XOR", "x ^ y", .xy, .dw, .xor),
   (0x05#8, 0b00101#5, "SHL", "x << s", .xs, .dw, .shl),
   (0x06#8, 0b00110#5, "SHR", "x >> s", .xs, .dw, .shr),
   (0x08#8, 0b01000#5, "EQ", "x == y", .xy, .bool, .eq),
   (0x09#8, 0b01001#5, "NE", "x != y", .xy, .bool, .ne),
   (0x0A#8, 0b01010#5, "LT", "x < y", .xy, .bool, .lt)] ++
  [(0x0B#8, 0b01011#5, "GT", "x > y", .xy, .bool, .gt),
   (0x0C#8, 0b01100#5, "LE", "x <= y", .xy, .bool, .le),
   (0x0D#8, 0b01101#5, "GE", "x >= y", .xy, .bool, .ge),
   (0x0E#8, 0b01110#5, "ISNZ", "isNonZero(x)", .x, .bool, .isnz),
   (0x0F#8, 0b01111#5, "ISZ", "isZero(x)", .x, .bool, .isz),
   (0x10#8, 0b10000#5, "ADD", "x + y", .xy, .dw, .add),
   (0x11#8, 0b10001#5, "SUB", "x - y", .xy, .dw, .sub),
   (0x12#8, 0b10010#5, "BITLEN", "bitLength(x)", .x, .int, .bitlen),
   (0x13#8, 0b10011#5, "MUL", "x * y", .xy, .dw, .mul),
   (0x14#8, 0b10100#5, "DIVMOD", "divmod(x, y)", .xy, .pair, .divmod)]

/-- R52: every row of the opcode map holds of the decoder, the encoder and the columns of the model, and every operation has
a row. -/
def Obligations.OpcodeMapRows : Prop :=
  (∀ cw op m f r k i, (cw, op, m, f, r, k, i) ∈ opcodeMap →
    decode cw = some i ∧ encode i = cw ∧ opField cw = op ∧ rsvField cw = 0b000#3 ∧ i.mnemonic = m ∧ i.sourceForm = f ∧
      i.reads = r ∧ i.resultClass = k) ∧
  (∀ i : Instr, ∃ cw op m f r k, (cw, op, m, f, r, k, i) ∈ opcodeMap) ∧ opcodeMap.length = 19

/-- R54, R53: of the 256 command words exactly 19 are legal and 237 are not; the legal ones are those that decode to an
operation, with reserved bits zero and an opcode that is none of the 13 reserved ones. A command with an illegal word,
whatever else it holds, is answered `ILLEGAL_OP`. -/
def Obligations.NineteenLegalWords : Prop :=
  (∀ cw : BitVec 8, (decode cw).isSome ↔ (rsvField cw = 0b000#3 ∧ opField cw ∉ reservedOpcodes)) ∧
  ((List.range 256).countP fun n => (decode (BitVec.ofNat 8 n)).isSome) = 19 ∧
  ((List.range 256).countP fun n => (decode (BitVec.ofNat 8 n)).isNone) = 237 ∧ reservedOpcodes.length = 13 ∧
  ∀ (W : Nat) (c : Command W), (rsvField c.cw ≠ 0b000#3 ∨ opField c.cw ∈ reservedOpcodes) → respond c = .failed .illegalOp

/-- R61, R55: a written command whose operands are of the form its operation takes reads back from its encoding, with every
operand at every value; and what is read back from any command is well-formed, is encoded with the same command word, and
has the operands of the command itself. -/
def Obligations.WrittenCommandsRoundTrip : Prop :=
  (∀ (W : Nat) (m : Written W), m.wellFormed = true → m.encode.written = some m) ∧
  ∀ (W : Nat) (c : Command W) (m : Written W), c.written = some m →
    m.wellFormed = true ∧ m.encode.cw = c.cw ∧ m.op.reads.operandsOf m.encode = m.op.reads.operandsOf c

/-- R61, R62: a line with an operation's mnemonic assembles to its encoding exactly when the operands are those it takes,
unread fields are zero, and no two operations share a mnemonic. -/
def Obligations.AssemblerFollowsMnemonics : Prop :=
  ∀ (W : Nat) (i : Instr) (form : OperandForm W),
    assemble i.mnemonic form = (if (Written.mk i form).wellFormed then some (Written.mk i form).encode else none) ∧
    ((Written.mk i form).encode.s ≠ 0#W → ∃ x s, form = .shift x s) ∧
    ((Written.mk i form).encode.y ≠ DW.zero → ∃ x y, form = .two x y)

/-! ### The step (spec/20_memory.md, spec/30_encoding.md, spec/60_exceptions.md, spec/70_reset_and_hazards.md) -/

/-- An idle unit whose host presents a command with a legal word runs the decoded operation on the state in which the
command has been accepted: all its fields on the port at once, and the host's list moved on. -/
def Obligations.StepRunsTheDecodedOperation : Prop :=
  ∀ (w : Width) (u : Dwu w.bits) (c : Command w.bits) (rest : List (HostEvent w.bits)) (i : Instr),
    u.work = .idle → u.host = .command c :: rest → decode c.cw = some i →
    step ⟨w, u⟩ = exec i ⟨w, { u with host := rest, cmd := c }⟩

/-- R130 (R53, R54, R135): a command word with reserved bits set or a reserved opcode is answered `ILLEGAL_OP` whatever the
operand fields hold; nothing is computed, nothing but the response changes, and on the port every data field is zero. -/
def Obligations.IllegalWordAnswersIllegalOp : Prop :=
  ∀ (w : Width) (u : Dwu w.bits) (c : Command w.bits) (rest : List (HostEvent w.bits)),
    u.work = .idle → u.host = .command c :: rest → (rsvField c.cw ≠ 0b000#3 ∨ opField c.cw ∈ reservedOpcodes) →
    step ⟨w, u⟩ = .next ⟨w, { u with host := rest, cmd := c, delivered := u.delivered ++ [.failed .illegalOp] }⟩ ∧
    (Response.failed (W := w.bits) .illegalOp).wires = ⟨0b10#2, 0, 0, 0, 0, 0#1⟩

/-- R60: an idle unit that takes whole commands answers any of the possible commands with exactly one response, the one of
`exec(W, cmd)`, and is idle again; every legal operation but `DIVMOD` with a zero divisor completes with status `OK`. -/
def Obligations.EveryCommandGetsItsResponse : Prop :=
  ∀ (w : Width) (u : Dwu w.bits) (c : Command w.bits) (rest : List (HostEvent w.bits)),
    u.granularity = .wholeCommand → u.work = .idle → u.host = .command c :: rest →
    step ⟨w, u⟩ = .next ⟨w, { u with host := rest, cmd := c, delivered := u.delivered ++ [respond c] }⟩ ∧
    (∀ i, decode c.cw = some i → ¬ (i = .divmod ∧ c.y.val = 0) → (respond c).status = .ok)

/-- R28, R46: two idle units of the same width, in whatever states and views, with whatever responses before and whatever
commands to come, answer the same command with the same response. -/
def Obligations.ResponseDependsOnTheCommandAlone : Prop :=
  ∀ (w : Width) (u v : Dwu w.bits) (c : Command w.bits) (nextU nextV : List (Command w.bits)),
    u.work = .idle → u.host = .command c :: nextU.map .command → v.work = .idle → v.host = .command c :: nextV.map .command →
    ∃ p j k,
      run j ⟨w, u⟩ = .next ⟨w, { u with host := nextU.map .command, cmd := c, delivered := u.delivered ++ [p] }⟩ ∧
      run k ⟨w, v⟩ = .next ⟨w, { v with host := nextV.map .command, cmd := c, delivered := v.delivered ++ [p] }⟩

/-- R55: two commands with the same command word that agree on the operand fields the operation reads get the same response
from a unit in either view; two commands with the same illegal word get the same response whatever their fields. -/
def Obligations.UnreadFieldsAreIgnored : Prop :=
  ∀ (w : Width) (u : Dwu w.bits) (c d : Command w.bits),
    u.work = .idle → c.cw = d.cw → (∀ i, decode c.cw = some i → i.reads.operandsOf c = i.reads.operandsOf d) →
    ∃ p j k, run j ⟨w, { u with host := [.command c] }⟩ =
        .next ⟨w, { u with host := [], cmd := c, delivered := u.delivered ++ [p] }⟩ ∧
      run k ⟨w, { u with host := [.command d] }⟩ =
        .next ⟨w, { u with host := [], cmd := d, delivered := u.delivered ++ [p] }⟩

/-- R47, R144: a busy unit does not accept a command. The command stays with the host, the port keeps its fields, and the
command in flight goes on exactly as if none had been presented. -/
def Obligations.BusyUnitAcceptsNothing : Prop :=
  ∀ (w : Width) (u : Dwu w.bits) (c : Command w.bits) (rest : List (HostEvent w.bits)),
    u.work ≠ .idle → u.host = .command c :: rest →
    ∃ v : Dwu w.bits, step ⟨w, { u with host := [] }⟩ = .next ⟨w, { v with host := [] }⟩ ∧
      step ⟨w, u⟩ = .next ⟨w, v⟩ ∧ v.host = u.host ∧ v.cmd = u.cmd ∧ v.work ≠ u.work

/-- R140, R141: reset at any moment, whatever the host does after it, makes the unit idle with no response delivered and
leaves `W` alone; a command issued again after it gets the response it would have had. That reset changes nothing else is
the model's reading, stated by itself (ResetChangesNothingElse, log 11). -/
def Obligations.ResetAbortsTheCommandInFlight : Prop :=
  ∀ (w : Width) (u : Dwu w.bits) (rest : List (HostEvent w.bits)), u.host = .reset :: rest →
    ∃ v : Dwu w.bits, step ⟨w, u⟩ = .next ⟨w, v⟩ ∧ v.work = .idle ∧ v.delivered = u.delivered ∧ v.host = rest ∧
      ∀ (c : Command w.bits) (next : List (Command w.bits)), rest = .command c :: next.map .command →
        ∃ k, run k ⟨w, v⟩ =
          .next ⟨w, { v with host := next.map .command, cmd := c, delivered := v.delivered ++ [respond c] }⟩

/-- The model's choice (log 9, log 3): an idle unit to which no command is presented stays as it is. -/
def Obligations.IdleUnitWaits : Prop :=
  ∀ (w : Width) (u : Dwu w.bits), u.work = .idle →
    (u.host = [] → step ⟨w, u⟩ = .next ⟨w, u⟩) ∧
    (∀ rest, u.host = .pause :: rest → step ⟨w, u⟩ = .next ⟨w, { u with host := rest }⟩)

/-- R38, R140: after reset, at either width and in either view, the unit is idle, and the first command gives the response
it would give at any other time. -/
def Obligations.FirstCommandAfterReset : Prop :=
  (∀ w g, (State.resetWith w g).width = w ∧ (State.resetWith w g).unit.work = .idle) ∧
  ∀ (w : Width) (g : Granularity) (u : Dwu w.bits) (c : Command w.bits), u.work = .idle → u.host = [.command c] →
    ∃ p j k, run j ((State.resetWith w g).present c) = .next ⟨w, { Dwu.reset g with cmd := c, delivered := [p] }⟩ ∧
      run k ⟨w, u⟩ = .next ⟨w, { u with host := [], cmd := c, delivered := u.delivered ++ [p] }⟩

/-- R146 to R148, with the steps of the bit-serial view (log 6), those of `BITLEN` being the model's reading (log 7): the
machine never stops (it has no fault and refuses nothing); a command in flight is a bounded number of steps from its
response, one fewer after every step in which the host signals no reset; the step that accepts a command either delivers one
response and leaves the unit idle or delivers none and leaves it busy; and so does every later step, so that a command ends
with exactly one response. -/
def Obligations.EveryCommandEnds : Prop :=
  (∀ s : State, ∃ t, step s = .next t) ∧
  (∀ (w : Width) (u : Dwu w.bits), u.Inv →
    (∀ r, u.work = .counting r → u.work.remaining ≤ w.bits + 1) ∧
    (∀ d, u.work = .dividing d → u.work.remaining ≤ 2 * w.bits + 1)) ∧
  (∀ (w : Width) (u : Dwu w.bits) (c : Command w.bits) (rest : List (HostEvent w.bits)),
    u.work = .idle → u.host = .command c :: rest →
    ∃ v : Dwu w.bits, step ⟨w, u⟩ = .next ⟨w, v⟩ ∧ v.work.remaining ≤ 2 * w.bits + 1 ∧
      (v.work = .idle → ∃ p, v.delivered = u.delivered ++ [p]) ∧ (v.work ≠ .idle → v.delivered = u.delivered)) ∧
  ∀ (w : Width) (u : Dwu w.bits), u.work ≠ .idle → (∀ rest, u.host ≠ .reset :: rest) →
    ∃ v : Dwu w.bits, step ⟨w, u⟩ = .next ⟨w, v⟩ ∧ v.work.remaining + 1 = u.work.remaining ∧
      (v.work.remaining = 0 ↔ v.work = .idle) ∧
      (v.work = .idle → ∃ p, v.delivered = u.delivered ++ [p]) ∧ (v.work ≠ .idle → v.delivered = u.delivered)

/-- R47: commands presented one after the other are answered one response each, in their order, and the unit is idle at the
end, in either view (log 6), within `2W + 2` steps a command (for `BITLEN` a step is what log 7 takes it to be). -/
def Obligations.ResponsesComeInCommandOrder : Prop :=
  ∀ (w : Width) (u : Dwu w.bits) (cs : List (Command w.bits)),
    u.work = .idle → u.host = cs.map .command →
    ∃ k t, k ≤ cs.length * (2 * w.bits + 2) ∧ run k ⟨w, u⟩ = .next ⟨w, t⟩ ∧ t.work = .idle ∧ t.host = [] ∧
      t.granularity = u.granularity ∧ t.delivered = u.delivered ++ cs.map respond

/-! ### Responses and failures (spec/30_encoding.md R58, R59, spec/60_exceptions.md) -/

/-- R57, R59: a completed response on the port is its status and its five data fields, each in its own place, and the host
reads the two results back from their limb fields; the three status codes, and `0b11` on no response. -/
def Obligations.StatusCodes : Prop :=
  (∀ (W : Nat) (r r2 : DW W) (b : Bool),
    (Response.ok r r2 b).wires = ⟨0b00#2, r.low, r.high, r2.low, r2.high, BitVec.ofBool b⟩ ∧
    (Response.ok r r2 b).wires.r = r ∧ (Response.ok r r2 b).wires.r2 = r2) ∧
  (∀ (W : Nat) (f : ResponseFields W), f.r.low = f.rLow ∧ f.r.high = f.rHigh ∧ f.r2.low = f.r2Low ∧ f.r2.high = f.r2High) ∧
  (∀ W : Nat, (Response.failed (W := W) .divByZero).wires.status = 0b01#2) ∧
  (∀ W : Nat, (Response.failed (W := W) .illegalOp).wires.status = 0b10#2) ∧
  (∀ (W : Nat) (p : Response W), p.wires.status ≠ 0b11#2 ∧ Status.ofCode p.wires.status = some p.status) ∧
  Status.ofCode 0b11#2 = none

/-- R58: with status `OK` the fields outside the operation's class are zero; with any other status every data field is. -/
def Obligations.ResultClasses : Prop :=
  ∀ (w : Width) (c : Command w.bits),
    (∀ i r r2 flag, decode c.cw = some i → respond c = .ok r r2 flag →
      (i.resultClass = .dw → r2 = DW.zero ∧ flag = false) ∧
      (i.resultClass = .bool → r = DW.zero ∧ r2 = DW.zero) ∧
      (i.resultClass = .int → r.high = 0#w.bits ∧ r2 = DW.zero ∧ flag = false ∧ r.low.toNat = c.x.bitLength) ∧
      (i.resultClass = .pair → flag = false ∧ r.val = c.x.val / c.y.val ∧ r2.val = c.x.val % c.y.val)) ∧
    ((respond c).status ≠ .ok → (respond c).wires = ⟨(respond c).status.code, 0, 0, 0, 0, 0#1⟩)

/-- R128, R135: `ILLEGAL_OP` answers exactly the words that select no operation, `DIV_BY_ZERO` exactly the word `0x14` with
a zero divisor, and every other command completes with status `OK`. -/
def Obligations.OnlyTwoFailures : Prop :=
  ∀ (w : Width) (c : Command w.bits),
    ((respond c).status = .illegalOp ↔ decode c.cw = none) ∧
    ((respond c).status = .divByZero ↔ (c.cw = 0x14#8 ∧ c.y.val = 0)) ∧
    ((respond c).status = .ok ↔ (decode c.cw ≠ none ∧ ¬ (c.cw = 0x14#8 ∧ c.y.val = 0)))

/-- R23, R31, R136: what every operation leaves alone. A meaning that answers a next state keeps the width, the view, the
host's list and the command port (no operand is ever changed), delivers at most one response, and touches the working
registers only for `BITLEN` and `DIVMOD` in the bit-serial view. -/
def Obligations.OperationsChangeOnlyTheResponse : Prop :=
  ∀ (i : Instr) (w : Width) (u : Dwu w.bits) (t : State), exec i ⟨w, u⟩ = .next t →
    ∃ v : Dwu w.bits, t = ⟨w, v⟩ ∧ v.granularity = u.granularity ∧ v.host = u.host ∧ v.cmd = u.cmd ∧
      ((v.work = u.work ∧ ∃ p, v.delivered = u.delivered ++ [p]) ∨
        ((i = .bitlen ∨ i = .divmod) ∧ u.granularity = .bitSerial ∧ v.delivered = u.delivered))

/-! ### Numbers (spec/00_scope.md section 4, spec/10_state.md) -/

/-- R13 to R17: the limb primitives as arithmetic on the numbers, at any limb width. -/
def Obligations.LimbPrimitives : Prop :=
  ∀ (W : Nat) (a b : Limb W) (k : Nat),
    (addW a b).toNat = (a.toNat + b.toNat) % 2 ^ W ∧
    ((subW a b).toNat : Int) = ((a.toNat : Int) - b.toNat) % 2 ^ W ∧
    (mulW a b).toNat = (a.toNat * b.toNat) % 2 ^ W ∧
    (shlW a k).toNat = (a.toNat * 2 ^ k) % 2 ^ W ∧ (k ≥ W → shlW a k = 0#W) ∧ shlW a 0 = a ∧
    (shrW a k).toNat = a.toNat / 2 ^ k ∧ (k ≥ W → shrW a k = 0#W) ∧ shrW a 0 = a ∧
    (notW a).toNat = (2 ^ W - 1) - a.toNat ∧
    (∀ j, (andW a b).getLsbD j = (a.getLsbD j && b.getLsbD j) ∧ (orW a b).getLsbD j = (a.getLsbD j || b.getLsbD j) ∧
      (xorW a b).getLsbD j = (a.getLsbD j ^^ b.getLsbD j)) ∧
    (loHalf a).toNat = a.toNat % 2 ^ halfW W ∧ (hiHalf a).toNat = a.toNat / 2 ^ halfW W ∧
    (loHalf a).toNat < 2 ^ halfW W ∧ (W % 2 = 0 → (hiHalf a).toNat < 2 ^ halfW W) ∧
    a.toNat = (hiHalf a).toNat * 2 ^ halfW W + (loHalf a).toNat

/-- R19, R21, R22, R41: `val` is a bijection between the pairs and the numbers below `2^(2W)`, `dw` is its inverse, and the
value on one bus is the same number. -/
def Obligations.ValuesAndNumbers : Prop :=
  ∀ (W : Nat) (x y : DW W) (v : Nat),
    x.val = x.high.toNat * 2 ^ W + x.low.toNat ∧ x.val < 2 ^ (2 * W) ∧ (x.val = y.val → x = y) ∧
    DW.ofNat W x.val = x ∧ (DW.ofNat W v).val = v % 2 ^ (2 * W) ∧ x.bus.toNat = x.val

/-- R25: a native value of at most `W` bits is zero-extended, so it denotes itself; a wider one is not taken. -/
def Obligations.FromNativeZeroExtends : Prop :=
  ∀ (W n : Nat) (v : BitVec n),
    (n ≤ W → ∃ x, fromNative W v = some x ∧ x.low.toNat = v.toNat ∧ x.high = 0#W ∧ x.val = v.toNat) ∧
    (W < n → fromNative W v = none)

/-! ### The bitwise logic array (spec/40_bitwise.md) -/

/-- R70. -/
def Obligations.NotResult : Prop :=
  decode 0x01#8 = some .not ∧
  ∀ (w : Width) (u : Dwu w.bits),
    exec .not ⟨w, u⟩ = .next ⟨w, { u with delivered := u.delivered ++ [.ok u.cmd.x.not DW.zero false] }⟩ ∧
    u.cmd.x.not.low = ~~~u.cmd.aLow ∧ u.cmd.x.not.high = ~~~u.cmd.aHigh ∧
    u.cmd.x.not.val = (2 ^ (2 * w.bits) - 1) - u.cmd.x.val ∧ u.cmd.x.not.not = u.cmd.x

/-- R71, R72, R73: limb by limb, and so bit by bit. -/
def Obligations.AndOrXorResult : Prop :=
  decode 0x02#8 = some .and ∧ decode 0x03#8 = some .or ∧ decode 0x04#8 = some .xor ∧
  ∀ (w : Width) (u : Dwu w.bits),
    exec .and ⟨w, u⟩ = .next ⟨w, { u with delivered := u.delivered ++ [.ok (u.cmd.x.and u.cmd.y) DW.zero false] }⟩ ∧
    exec .or ⟨w, u⟩ = .next ⟨w, { u with delivered := u.delivered ++ [.ok (u.cmd.x.or u.cmd.y) DW.zero false] }⟩ ∧
    exec .xor ⟨w, u⟩ = .next ⟨w, { u with delivered := u.delivered ++ [.ok (u.cmd.x.xor u.cmd.y) DW.zero false] }⟩ ∧
    u.cmd.x.and u.cmd.y = ⟨u.cmd.aLow &&& u.cmd.bLow, u.cmd.aHigh &&& u.cmd.bHigh⟩ ∧
    u.cmd.x.or u.cmd.y = ⟨u.cmd.aLow ||| u.cmd.bLow, u.cmd.aHigh ||| u.cmd.bHigh⟩ ∧
    u.cmd.x.xor u.cmd.y = ⟨u.cmd.aLow ^^^ u.cmd.bLow, u.cmd.aHigh ^^^ u.cmd.bHigh⟩ ∧
    ∀ k, (u.cmd.x.and u.cmd.y).val.testBit k = (u.cmd.x.val.testBit k && u.cmd.y.val.testBit k) ∧
      (u.cmd.x.or u.cmd.y).val.testBit k = (u.cmd.x.val.testBit k || u.cmd.y.val.testBit k) ∧
      (u.cmd.x.xor u.cmd.y).val.testBit k = (u.cmd.x.val.testBit k ^^ u.cmd.y.val.testBit k)

/-- R74: in the four bitwise operations no signal crosses between the limbs, and none of them fails. -/
def Obligations.BitwiseLimbsAreIndependent : Prop :=
  ∀ (i : Instr), i = .not ∨ i = .and ∨ i = .or ∨ i = .xor →
  ∀ (w : Width) (u v : Dwu w.bits),
    ∃ r r', exec i ⟨w, u⟩ = .next ⟨w, { u with delivered := u.delivered ++ [.ok r DW.zero false] }⟩ ∧
      exec i ⟨w, v⟩ = .next ⟨w, { v with delivered := v.delivered ++ [.ok r' DW.zero false] }⟩ ∧
      (u.cmd.aLow = v.cmd.aLow → u.cmd.bLow = v.cmd.bLow → r.low = r'.low) ∧
      (u.cmd.aHigh = v.cmd.aHigh → u.cmd.bHigh = v.cmd.bHigh → r.high = r'.high)

/-! ### The shifter (spec/41_shift.md) -/

/-- R76, R75: the source's two formulas, and the number they give, for every amount the port carries. -/
def Obligations.ShlResult : Prop :=
  decode 0x05#8 = some .shl ∧
  ∀ (w : Width) (u : Dwu w.bits),
    exec .shl ⟨w, u⟩ =
      .next ⟨w, { u with delivered := u.delivered ++ [.ok (u.cmd.x.shl u.cmd.s.toNat) DW.zero false] }⟩ ∧
    u.cmd.x.shl u.cmd.s.toNat =
      (if u.cmd.s.toNat > w.bits then ⟨0, u.cmd.aLow <<< (u.cmd.s.toNat - w.bits)⟩
       else ⟨u.cmd.aLow <<< u.cmd.s.toNat, (u.cmd.aHigh <<< u.cmd.s.toNat) ||| (u.cmd.aLow >>> (w.bits - u.cmd.s.toNat))⟩) ∧
    (u.cmd.x.shl u.cmd.s.toNat).val = (u.cmd.x.val * 2 ^ u.cmd.s.toNat) % 2 ^ (2 * w.bits)

/-- R77, R75: the mirrored formulas, and the number they give, for every amount the port carries. -/
def Obligations.ShrResult : Prop :=
  decode 0x06#8 = some .shr ∧
  ∀ (w : Width) (u : Dwu w.bits),
    exec .shr ⟨w, u⟩ =
      .next ⟨w, { u with delivered := u.delivered ++ [.ok (u.cmd.x.shr u.cmd.s.toNat) DW.zero false] }⟩ ∧
    u.cmd.x.shr u.cmd.s.toNat =
      (if u.cmd.s.toNat > w.bits then ⟨u.cmd.aHigh >>> (u.cmd.s.toNat - w.bits), 0⟩
       else ⟨(u.cmd.aLow >>> u.cmd.s.toNat) ||| (u.cmd.aHigh <<< (w.bits - u.cmd.s.toNat)), u.cmd.aHigh >>> u.cmd.s.toNat⟩) ∧
    (u.cmd.x.shr u.cmd.s.toNat).val = u.cmd.x.val / 2 ^ u.cmd.s.toNat

/-- R78: shift by zero, by the total width and more, and composition, in both directions. -/
def Obligations.ShiftIdentities : Prop :=
  ∀ (w : Width) (x : DW w.bits),
    x.shl 0 = x ∧ x.shr 0 = x ∧
    (∀ k, k ≥ 2 * w.bits → x.shl k = DW.zero ∧ x.shr k = DW.zero) ∧
    ∀ a b, (x.shl a).shl b = x.shl (a + b) ∧ (x.shr a).shr b = x.shr (a + b)

/-! ### The comparator (spec/42_relational.md) -/

/-- R80, R81: both limbs decide equality, and so the numbers. -/
def Obligations.EqualityResult : Prop :=
  decode 0x08#8 = some .eq ∧ decode 0x09#8 = some .ne ∧
  ∀ (w : Width) (u : Dwu w.bits), ∃ e : Bool,
    exec .eq ⟨w, u⟩ = .next ⟨w, { u with delivered := u.delivered ++ [.ok DW.zero DW.zero e] }⟩ ∧
    exec .ne ⟨w, u⟩ = .next ⟨w, { u with delivered := u.delivered ++ [.ok DW.zero DW.zero (!e)] }⟩ ∧
    (e = true ↔ (u.cmd.aLow = u.cmd.bLow ∧ u.cmd.aHigh = u.cmd.bHigh)) ∧ (e = true ↔ u.cmd.x.val = u.cmd.y.val)

/-- R82 to R85: the high limb decides, on a tie the low limb, unsigned; the other three are composed of `<` and `==`; and
so they order the numbers. -/
def Obligations.OrderResult : Prop :=
  decode 0x0A#8 = some .lt ∧ decode 0x0B#8 = some .gt ∧ decode 0x0C#8 = some .le ∧ decode 0x0D#8 = some .ge ∧
  ∀ (w : Width) (u : Dwu w.bits), ∃ lt eq : Bool,
    exec .lt ⟨w, u⟩ = .next ⟨w, { u with delivered := u.delivered ++ [.ok DW.zero DW.zero lt] }⟩ ∧
    exec .gt ⟨w, u⟩ = .next ⟨w, { u with delivered := u.delivered ++ [.ok DW.zero DW.zero (!(lt || eq))] }⟩ ∧
    exec .le ⟨w, u⟩ = .next ⟨w, { u with delivered := u.delivered ++ [.ok DW.zero DW.zero (lt || eq)] }⟩ ∧
    exec .ge ⟨w, u⟩ = .next ⟨w, { u with delivered := u.delivered ++ [.ok DW.zero DW.zero (!lt)] }⟩ ∧
    (lt = true ↔ (u.cmd.aHigh.toNat < u.cmd.bHigh.toNat ∨
      (u.cmd.aHigh = u.cmd.bHigh ∧ u.cmd.aLow.toNat < u.cmd.bLow.toNat))) ∧
    (eq = true ↔ (u.cmd.aLow = u.cmd.bLow ∧ u.cmd.aHigh = u.cmd.bHigh)) ∧
    (lt = true ↔ u.cmd.x.val < u.cmd.y.val) ∧ ((!(lt || eq)) = true ↔ u.cmd.x.val > u.cmd.y.val) ∧
    ((lt || eq) = true ↔ u.cmd.x.val ≤ u.cmd.y.val) ∧ ((!lt) = true ↔ u.cmd.x.val ≥ u.cmd.y.val)

/-- R86, R87, R27: the non-zero test looks at both limbs. -/
def Obligations.ZeroTestResult : Prop :=
  decode 0x0E#8 = some .isnz ∧ decode 0x0F#8 = some .isz ∧
  ∀ (w : Width) (u : Dwu w.bits), ∃ z : Bool,
    exec .isnz ⟨w, u⟩ = .next ⟨w, { u with delivered := u.delivered ++ [.ok DW.zero DW.zero (!z)] }⟩ ∧
    exec .isz ⟨w, u⟩ = .next ⟨w, { u with delivered := u.delivered ++ [.ok DW.zero DW.zero z] }⟩ ∧
    ((!z) = true ↔ (u.cmd.aLow ≠ 0 ∨ u.cmd.aHigh ≠ 0)) ∧ (z = true ↔ u.cmd.x.val = 0)

/-- R88: the comparisons are the usual order on the numbers: `LT`, `EQ` and `GT` are less, equal and greater, exactly one of
them is true, and `LE`, `GE`, `NE` are the negations of `GT`, `LT`, `EQ`. -/
def Obligations.ComparisonsAreATotalOrder : Prop :=
  ∀ (w : Width) (u : Dwu w.bits), ∃ lt eq gt le ge ne : Bool,
    (∀ p ∈ [(Instr.lt, lt), (.eq, eq), (.gt, gt), (.le, le), (.ge, ge), (.ne, ne)],
      exec p.1 ⟨w, u⟩ = .next ⟨w, { u with delivered := u.delivered ++ [.ok DW.zero DW.zero p.2] }⟩) ∧
    (lt = true ↔ u.cmd.x.val < u.cmd.y.val) ∧ (eq = true ↔ u.cmd.x.val = u.cmd.y.val) ∧
    (gt = true ↔ u.cmd.x.val > u.cmd.y.val) ∧
    ((lt = true ∧ eq = false ∧ gt = false) ∨ (lt = false ∧ eq = true ∧ gt = false) ∨
      (lt = false ∧ eq = false ∧ gt = true)) ∧
    le = !gt ∧ ge = !lt ∧ ne = !eq

/-! ### The adder and subtractor (spec/43_additive.md) -/

/-- R90: the carry found by comparison is the carry of the low limbs, it is added into the high limb, and the sum wraps
modulo `2^(2W)`. -/
def Obligations.AddResult : Prop :=
  decode 0x10#8 = some .add ∧
  ∀ (w : Width) (u : Dwu w.bits), ∃ carry : Bool,
    exec .add ⟨w, u⟩ =
      .next ⟨w, { u with delivered := u.delivered ++ [.ok (u.cmd.x.add u.cmd.y) DW.zero false] }⟩ ∧
    (u.cmd.x.add u.cmd.y).low = u.cmd.aLow + u.cmd.bLow ∧
    (carry = true ↔ (u.cmd.aLow + u.cmd.bLow).toNat < u.cmd.aLow.toNat) ∧
    (carry = true ↔ u.cmd.aLow.toNat + u.cmd.bLow.toNat ≥ 2 ^ w.bits) ∧
    (carry = true ↔ (u.cmd.aLow + u.cmd.bLow).toNat < u.cmd.bLow.toNat) ∧
    (u.cmd.x.add u.cmd.y).high = u.cmd.aHigh + u.cmd.bHigh + (if carry then 1 else 0) ∧
    (u.cmd.x.add u.cmd.y).val = (u.cmd.x.val + u.cmd.y.val) % 2 ^ (2 * w.bits)

/-- R91: the borrow found by comparison is the borrow of the low limbs, it is taken from the high limb, and the difference
wraps modulo `2^(2W)`. -/
def Obligations.SubResult : Prop :=
  decode 0x11#8 = some .sub ∧
  ∀ (w : Width) (u : Dwu w.bits), ∃ borrow : Bool,
    exec .sub ⟨w, u⟩ =
      .next ⟨w, { u with delivered := u.delivered ++ [.ok (u.cmd.x.sub u.cmd.y) DW.zero false] }⟩ ∧
    (u.cmd.x.sub u.cmd.y).low = u.cmd.aLow - u.cmd.bLow ∧
    (borrow = true ↔ (u.cmd.aLow - u.cmd.bLow).toNat > u.cmd.aLow.toNat) ∧
    (borrow = true ↔ u.cmd.bLow.toNat > u.cmd.aLow.toNat) ∧
    (u.cmd.x.sub u.cmd.y).high = u.cmd.aHigh - u.cmd.bHigh - (if borrow then 1 else 0) ∧
    ((u.cmd.x.sub u.cmd.y).val : Int) = ((u.cmd.x.val : Int) - u.cmd.y.val) % 2 ^ (2 * w.bits)

/-! ### The bit-length counter (spec/44_bitlength.md) -/

/-- R95: the bit length of a limb is the number of one-bit shifts that bring it to zero, at most `W`. -/
def Obligations.LimbBitLength : Prop :=
  ∀ (W : Nat) (v : Limb W),
    v >>> limbBitlen v = 0#W ∧ (∀ k, k < limbBitlen v → v >>> k ≠ 0#W) ∧ limbBitlen v ≤ W ∧
    (v ≠ 0#W → limbBitlen v = Nat.log2 v.toNat + 1)

/-- R96: `BITLEN` in the whole-command view. -/
def Obligations.BitlenResult : Prop :=
  decode 0x12#8 = some .bitlen ∧
  ∀ (w : Width) (u : Dwu w.bits), u.granularity = .wholeCommand →
    ∃ n r, exec .bitlen ⟨w, u⟩ = .next ⟨w, { u with delivered := u.delivered ++ [.ok r DW.zero false] }⟩ ∧
      r.low.toNat = n ∧ r.high = 0 ∧ n ≤ 2 * w.bits ∧
      n = (if u.cmd.aHigh ≠ 0 then w.bits + limbBitlen u.cmd.aHigh else limbBitlen u.cmd.aLow) ∧
      (u.cmd.x.val = 0 → n = 0) ∧ (u.cmd.x.val ≠ 0 → 2 ^ (n - 1) ≤ u.cmd.x.val ∧ u.cmd.x.val < 2 ^ n)

/-- `BITLEN` in the bit-serial view (log 7: the accepting and the delivering step are the model's reading of R36 and R95):
it sets the two registers, then one shift a step, then the response; the shifts are as many as R148 counts. -/
def Obligations.SerialBitlenCountsShifts : Prop :=
  ∀ (w : Width) (u : Dwu w.bits), u.granularity = .bitSerial →
    exec .bitlen ⟨w, u⟩ =
      .next ⟨w, { u with work := .counting ⟨if u.cmd.aHigh ≠ 0 then u.cmd.aHigh else u.cmd.aLow, 0⟩ }⟩ ∧
    (u.hostWaits = true →
      run (limbBitlen (if u.cmd.aHigh ≠ 0 then u.cmd.aHigh else u.cmd.aLow) + 1)
        ⟨w, { u with work := .counting ⟨if u.cmd.aHigh ≠ 0 then u.cmd.aHigh else u.cmd.aLow, 0⟩ }⟩ =
      .next ⟨w,
        { u with
          work := .idle
          delivered := u.delivered ++ [.ok ⟨BitVec.ofNat w.bits u.cmd.x.bitLength, 0⟩ DW.zero false] }⟩)

/-! ### The multiplier (spec/45_multiply.md) -/

/-- R102: no half-limb product wraps. -/
def Obligations.HalfLimbProductsNeverWrap : Prop :=
  ∀ (w : Width) (x y : DW w.bits),
    (mulParts x y).p00.toNat = (x.low.toNat % 2 ^ (w.bits / 2)) * (y.low.toNat % 2 ^ (w.bits / 2)) ∧
    (mulParts x y).p10.toNat = (x.low.toNat / 2 ^ (w.bits / 2)) * (y.low.toNat % 2 ^ (w.bits / 2)) ∧
    (mulParts x y).p01.toNat = (x.low.toNat % 2 ^ (w.bits / 2)) * (y.low.toNat / 2 ^ (w.bits / 2)) ∧
    (mulParts x y).p11.toNat = (x.low.toNat / 2 ^ (w.bits / 2)) * (y.low.toNat / 2 ^ (w.bits / 2)) ∧
    ∀ p ∈ [(mulParts x y).p00, (mulParts x y).p10, (mulParts x y).p01, (mulParts x y).p11],
      p.toNat ≤ 2 ^ w.bits - 2 ^ (w.bits / 2 + 1) + 1

/-- R100: the decomposition, step by step, with the two carries as what they stand for and the carry of `mid` at weight
`2^halfW` in the high limb. -/
def Obligations.MulFollowsTheDecomposition : Prop :=
  decode 0x13#8 = some .mul ∧
  ∀ (w : Width) (u : Dwu w.bits), ∃ p00 p10 p01 p11 mid lower : Limb w.bits, ∃ carryMid carryLow : Bool,
    p00.toNat = (u.cmd.aLow.toNat % 2 ^ (w.bits / 2)) * (u.cmd.bLow.toNat % 2 ^ (w.bits / 2)) ∧
    p10.toNat = (u.cmd.aLow.toNat / 2 ^ (w.bits / 2)) * (u.cmd.bLow.toNat % 2 ^ (w.bits / 2)) ∧
    p01.toNat = (u.cmd.aLow.toNat % 2 ^ (w.bits / 2)) * (u.cmd.bLow.toNat / 2 ^ (w.bits / 2)) ∧
    p11.toNat = (u.cmd.aLow.toNat / 2 ^ (w.bits / 2)) * (u.cmd.bLow.toNat / 2 ^ (w.bits / 2)) ∧
    mid = p10 + p01 ∧ (carryMid = true ↔ mid.toNat < p01.toNat) ∧
    (carryMid = true ↔ p10.toNat + p01.toNat ≥ 2 ^ w.bits) ∧
    lower = p00 + (mid <<< (w.bits / 2)) ∧ (carryLow = true ↔ lower.toNat < p00.toNat) ∧
    (carryLow = true ↔ p00.toNat + (mid <<< (w.bits / 2)).toNat ≥ 2 ^ w.bits) ∧
    exec .mul ⟨w, u⟩ =
      .next ⟨w, { u with delivered := u.delivered ++
        [.ok ⟨lower, u.cmd.aHigh * u.cmd.bLow + u.cmd.aLow * u.cmd.bHigh + p11 + (mid >>> (w.bits / 2)) +
          (if carryMid then 1#w.bits <<< (w.bits / 2) else 0#w.bits) + (if carryLow then 1#w.bits else 0#w.bits)⟩ DW.zero false] }⟩

/-- R101: `MUL` gives the low `2W` bits of the true product. -/
def Obligations.MulIsTheProduct : Prop :=
  ∀ (w : Width) (u : Dwu w.bits), ∃ r : DW w.bits,
    exec .mul ⟨w, u⟩ = .next ⟨w, { u with delivered := u.delivered ++ [.ok r DW.zero false] }⟩ ∧
    r.val = (u.cmd.x.val * u.cmd.y.val) % 2 ^ (2 * w.bits)

/-! ### The divider (spec/46_divide.md) -/

/-- R108: the bit is taken from the limb that holds it, and it is that bit of the number. -/
def Obligations.BitSelection : Prop :=
  ∀ (W : Nat) (x : DW W) (k : Nat), k < 2 * W →
    x.bit k = x.val.testBit k ∧ (k < W → x.bit k = x.low.getLsbD k) ∧ (W ≤ k → x.bit k = x.high.getLsbD (k - W))

/-- R114, R129: a zero divisor fails, for every dividend and in either view, and nothing else does; no working register is
written, and on the port every data field is zero. -/
def Obligations.DivmodByZeroFails : Prop :=
  (∀ (w : Width) (u : Dwu w.bits),
    exec .divmod ⟨w, u⟩ = .next ⟨w, { u with delivered := u.delivered ++ [.failed .divByZero] }⟩ ↔
      u.cmd.y.val = 0) ∧
  ∀ w : Width, (Response.failed (W := w.bits) .divByZero).wires = ⟨0b01#2, 0, 0, 0, 0, 0#1⟩

/-- R109, in the whole-command view: the response, the law its two parts obey, and the invariant the loop keeps: after its
first `m` iterations, started at zero and zero, quotient and remainder are those of the dividend's bits consumed, and the
iterations that are left lead from there to the response. -/
def Obligations.DivmodLaw : Prop :=
  decode 0x14#8 = some .divmod ∧
  ∀ (w : Width) (u : Dwu w.bits), u.granularity = .wholeCommand → u.cmd.y.val ≠ 0 →
    ∃ q r : DW w.bits,
      exec .divmod ⟨w, u⟩ = .next ⟨w, { u with delivered := u.delivered ++ [.ok q r false] }⟩ ∧
      u.cmd.x.val = q.val * u.cmd.y.val + r.val ∧ r.val < u.cmd.y.val ∧
      q = DW.ofNat w.bits (u.cmd.x.val / u.cmd.y.val) ∧ r = DW.ofNat w.bits (u.cmd.x.val % u.cmd.y.val) ∧
      ∀ m, m ≤ u.cmd.x.bitLength →
        divLoop u.cmd.x u.cmd.y (u.cmd.x.bitLength - m) (divAfter u.cmd.x u.cmd.y m) = (q, r) ∧
        u.cmd.x.val / 2 ^ (u.cmd.x.bitLength - m) =
          (divAfter u.cmd.x u.cmd.y m).1.val * u.cmd.y.val + (divAfter u.cmd.x u.cmd.y m).2.val ∧
        (divAfter u.cmd.x u.cmd.y m).2.val < u.cmd.y.val

/-- R111: DIV_INIT, in the bit-serial view. -/
def Obligations.DivInitStep : Prop :=
  ∀ (w : Width) (u : Dwu w.bits), u.granularity = .bitSerial →
    (u.cmd.y.val = 0 →
      exec .divmod ⟨w, u⟩ = .next ⟨w, { u with delivered := u.delivered ++ [.failed .divByZero] }⟩) ∧
    (u.cmd.y.val ≠ 0 →
      exec .divmod ⟨w, u⟩ = .next ⟨w,
        { u with work := .dividing ⟨u.cmd.x, u.cmd.y, DW.zero, DW.zero, u.cmd.x.bitLength⟩ }⟩)

/-- R112: DIV_ITER. One iteration, in program order, while the index is not 0. -/
def Obligations.DivIterStep : Prop :=
  ∀ (w : Width) (u : Dwu w.bits) (d : DivRegs w.bits), u.work = .dividing d → d.i ≥ 1 → u.hostWaits = true →
    ∃ shifted : DW w.bits,
      shifted = ⟨if d.dividend.bit (d.i - 1) then (d.remainder.shl 1).low ||| 1 else (d.remainder.shl 1).low,
        (d.remainder.shl 1).high⟩ ∧
      (shifted.geFlag d.divisor = true → step ⟨w, u⟩ = .next ⟨w,
        { u with work := .dividing ⟨d.dividend, d.divisor,
            ⟨(d.quotient.shl 1).low ||| 1, (d.quotient.shl 1).high⟩, shifted.sub d.divisor, d.i - 1⟩ }⟩) ∧
      (shifted.geFlag d.divisor = false → step ⟨w, u⟩ = .next ⟨w,
        { u with work := .dividing ⟨d.dividend, d.divisor, d.quotient.shl 1, shifted, d.i - 1⟩ }⟩)

/-- R113: DIV_DONE. The response is delivered and the unit is idle. -/
def Obligations.DivDoneStep : Prop :=
  ∀ (w : Width) (u : Dwu w.bits) (d : DivRegs w.bits), u.work = .dividing d → d.i = 0 → u.hostWaits = true →
    step ⟨w, u⟩ =
      .next ⟨w, { u with work := .idle, delivered := u.delivered ++ [.ok d.quotient d.remainder false] }⟩

/-- R116: in every state that keeps the invariant, the divider's two left shifts lose no bit, and the inserted bit fits. -/
def Obligations.DividerShiftsLoseNoBit : Prop :=
  ∀ (w : Width) (u : Dwu w.bits) (d : DivRegs w.bits), u.Inv → u.work = .dividing d → d.i ≥ 1 →
    d.remainder.val < 2 ^ (2 * w.bits - 1) ∧ (d.remainder.shl 1).val = 2 * d.remainder.val ∧
    (d.quotient.shl 1).val = 2 * d.quotient.val ∧ ∀ b, (shiftedRemainder d.remainder b).val = 2 * d.remainder.val + b.toNat

/-- R113, R147 (with R109, R110): a bit-serial `DIVMOD` with a non-zero divisor takes exactly `bitLength(x)` iterations and one
delivering step after DIV_INIT, shows nothing before the last of them, keeps the loop invariant, and then delivers the
response of the whole command: floor quotient and remainder. -/
def Obligations.SerialDivmodDeliversTheLaw : Prop :=
  ∀ (w : Width) (u : Dwu w.bits), u.granularity = .bitSerial → u.cmd.y.val ≠ 0 → u.hostWaits = true →
    u.cmd.x.bitLength ≤ 2 * w.bits ∧
    ∃ t, exec .divmod ⟨w, u⟩ = .next t ∧
      (∀ k, k ≤ u.cmd.x.bitLength → ∃ d, run k t = .next ⟨w, { u with work := .dividing d }⟩ ∧
        d.i = u.cmd.x.bitLength - k ∧ u.cmd.x.val / 2 ^ d.i = d.quotient.val * u.cmd.y.val + d.remainder.val ∧
        d.remainder.val < u.cmd.y.val) ∧
      ∃ q r : DW w.bits,
        run (u.cmd.x.bitLength + 1) t =
          .next ⟨w, { u with work := .idle, delivered := u.delivered ++ [.ok q r false] }⟩ ∧
        exec .divmod ⟨w, { u with granularity := .wholeCommand }⟩ =
          .next ⟨w, { u with granularity := .wholeCommand, delivered := u.delivered ++ [.ok q r false] }⟩ ∧
        q.val = u.cmd.x.val / u.cmd.y.val ∧ r.val = u.cmd.x.val % u.cmd.y.val

/-! ### The two views and the invariant -/

/-- R113 (D34): the bit-serial view refines the whole-command one. From the same idle state, with the same command, the
bit-serial machine reaches in at most `2W + 2` steps the state the whole-command machine reaches in one. The view is a field of
the model (log 6), and the internal steps of `BITLEN` are its reading (log 7). -/
def Obligations.SerialRefinesWhole : Prop :=
  ∀ (w : Width) (u : Dwu w.bits) (c : Command w.bits) (rest : List (HostEvent w.bits)),
    u.work = .idle → u.host = .command c :: rest → Dwu.hostWaits { u with host := rest } = true →
    ∃ v : Dwu w.bits, step ⟨w, { u with granularity := .wholeCommand }⟩ = .next ⟨w, { v with granularity := .wholeCommand }⟩ ∧
      ∃ k, 1 ≤ k ∧ k ≤ 2 * w.bits + 2 ∧
        run k ⟨w, { u with granularity := .bitSerial }⟩ = .next ⟨w, { v with granularity := .bitSerial }⟩

/-- R109: the invariant of the machine, the loop invariant of the divider at its heart, is kept by every step. -/
def Obligations.EveryStepKeepsTheInvariant : Prop :=
  ∀ s t : State, s.Inv → step s = .next t → t.Inv

/-- The invariant holds after reset, at either width and in either view. -/
def Obligations.ResetMeetsTheInvariant : Prop :=
  (∀ w g, (State.resetWith w g).Inv) ∧ State.reset.Inv

/-! ### The host sequences (spec/47_derived_rendering.md) -/

/-- R120, R121: the digits of `toDecimalString` are decimal digits, denote the value, start with no zero, and are none for
zero, whose text is empty. -/
def Obligations.DecimalDigitsDenoteTheValue : Prop :=
  ∀ (w : Width) (x : DW w.bits),
    (∀ d ∈ decimalDigits x, d.toNat < 10) ∧
    Nat.ofDigits 10 ((decimalDigits x).map BitVec.toNat).reverse = x.val ∧
    (∀ d rest, decimalDigits x = d :: rest → d.toNat ≠ 0) ∧
    (x.val = 0 → decimalDigits x = [] ∧ toDecimalString x = [])

/-- R122: at most 20 digits at `W = 32` and 39 at `W = 64`. -/
def Obligations.DecimalDigitCount : Prop :=
  (∀ x : DW 32, (decimalDigits x).length ≤ 20) ∧ (∀ x : DW 64, (decimalDigits x).length ≤ 39) ∧
  (∃ x : DW 32, (decimalDigits x).length = 20) ∧ ∃ x : DW 64, (decimalDigits x).length = 39

/-- R125, R126: `toDebugHex` is the high limb as `W/4` hexadecimal digits, one space, the low limb the same, with no prefix
and the letters in the case the host asks for. -/
def Obligations.DebugHexShowsBothLimbs : Prop :=
  (∀ (w : Width) (x : DW w.bits) (upper : Bool), ∃ hi lo : List Nat,
    toDebugHex upper x = hi.map (hexDigit upper) ++ ' ' :: lo.map (hexDigit upper) ∧
    hi.length = w.bits / 4 ∧ lo.length = w.bits / 4 ∧ (∀ n ∈ hi, n < 16) ∧ (∀ n ∈ lo, n < 16) ∧
    Nat.ofDigits 16 hi.reverse = x.high.toNat ∧ Nat.ofDigits 16 lo.reverse = x.low.toNat) ∧
  (List.range 16).map (hexDigit true) = "0123456789ABCDEF".toList ∧
  (List.range 16).map (hexDigit false) = "0123456789abcdef".toList

/-! ### What the model chose -/

/-- The model's reading (log 11): reset empties the working registers, whatever the host does after it, and changes nothing
else: not the view, not the command port, not what was delivered. -/
def Obligations.ResetChangesNothingElse : Prop :=
  ∀ (w : Width) (u : Dwu w.bits) (rest : List (HostEvent w.bits)), u.host = .reset :: rest →
    step ⟨w, u⟩ = .next ⟨w, { u with host := rest, work := .idle }⟩

/-- The model's choice (log 15): the text of `toDecimalString` is the digits in their order, each as Lean's character for it;
R120 says which characters, R124 leaves their code to the host. -/
def Obligations.DecimalTextSpellsTheDigits : Prop :=
  ∀ (w : Width) (x : DW w.bits),
    (toDecimalString x).map some = (decimalDigits x).map fun d => "0123456789".toList[d.toNat]?
end

