-- ==== Sys2Proof/Laws/State.lean ====
section
/-! SUPPORT. One lemma per field per update of the unit and of the machine, so that no later proof unfolds a record update. -/

namespace Sys2Proof.Machine

variable {W : Nat} (u : Dwu W)

@[simp] theorem Dwu.granularity_withHost (h : List (HostEvent W)) : (u.withHost h).granularity = u.granularity := rfl
@[simp] theorem Dwu.host_withHost (h : List (HostEvent W)) : (u.withHost h).host = h := rfl
@[simp] theorem Dwu.cmd_withHost (h : List (HostEvent W)) : (u.withHost h).cmd = u.cmd := rfl
@[simp] theorem Dwu.work_withHost (h : List (HostEvent W)) : (u.withHost h).work = u.work := rfl
@[simp] theorem Dwu.delivered_withHost (h : List (HostEvent W)) : (u.withHost h).delivered = u.delivered := rfl

@[simp] theorem Dwu.granularity_accept (c : Command W) : (u.accept c).granularity = u.granularity := rfl
@[simp] theorem Dwu.host_accept (c : Command W) : (u.accept c).host = u.host := rfl
@[simp] theorem Dwu.cmd_accept (c : Command W) : (u.accept c).cmd = c := rfl
@[simp] theorem Dwu.work_accept (c : Command W) : (u.accept c).work = u.work := rfl
@[simp] theorem Dwu.delivered_accept (c : Command W) : (u.accept c).delivered = u.delivered := rfl

@[simp] theorem Dwu.granularity_deliver (p : Response W) : (u.deliver p).granularity = u.granularity := rfl
@[simp] theorem Dwu.host_deliver (p : Response W) : (u.deliver p).host = u.host := rfl
@[simp] theorem Dwu.cmd_deliver (p : Response W) : (u.deliver p).cmd = u.cmd := rfl
@[simp] theorem Dwu.work_deliver (p : Response W) : (u.deliver p).work = u.work := rfl
@[simp] theorem Dwu.delivered_deliver (p : Response W) : (u.deliver p).delivered = u.delivered ++ [p] := rfl

@[simp] theorem Dwu.granularity_withWork (k : Work W) : (u.withWork k).granularity = u.granularity := rfl
@[simp] theorem Dwu.host_withWork (k : Work W) : (u.withWork k).host = u.host := rfl
@[simp] theorem Dwu.cmd_withWork (k : Work W) : (u.withWork k).cmd = u.cmd := rfl
@[simp] theorem Dwu.work_withWork (k : Work W) : (u.withWork k).work = k := rfl
@[simp] theorem Dwu.delivered_withWork (k : Work W) : (u.withWork k).delivered = u.delivered := rfl

@[simp] theorem Dwu.granularity_raise (f : Failure) : (u.raise f).granularity = u.granularity := rfl
@[simp] theorem Dwu.host_raise (f : Failure) : (u.raise f).host = u.host := rfl
@[simp] theorem Dwu.cmd_raise (f : Failure) : (u.raise f).cmd = u.cmd := rfl
@[simp] theorem Dwu.work_raise (f : Failure) : (u.raise f).work = u.work := rfl
@[simp] theorem Dwu.delivered_raise (f : Failure) : (u.raise f).delivered = u.delivered ++ [.failed f] := rfl

@[simp] theorem Dwu.granularity_abort : u.abort.granularity = u.granularity := rfl
@[simp] theorem Dwu.host_abort : u.abort.host = u.host := rfl
@[simp] theorem Dwu.cmd_abort : u.abort.cmd = u.cmd := rfl
@[simp] theorem Dwu.work_abort : u.abort.work = .idle := rfl
@[simp] theorem Dwu.delivered_abort : u.abort.delivered = u.delivered := rfl

variable (s : State)

@[simp] theorem State.width_deliver (p : Response s.width.bits) : (s.deliver p).width = s.width := rfl
@[simp] theorem State.unit_deliver (p : Response s.width.bits) : (s.deliver p).unit = s.unit.deliver p := rfl
@[simp] theorem State.width_withWork (k : Work s.width.bits) : (s.withWork k).width = s.width := rfl
@[simp] theorem State.unit_withWork (k : Work s.width.bits) : (s.withWork k).unit = s.unit.withWork k := rfl
@[simp] theorem State.width_raise (f : Failure) : (s.raise f).width = s.width := rfl
@[simp] theorem State.unit_raise (f : Failure) : (s.raise f).unit = s.unit.raise f := rfl
@[simp] theorem State.width_withHost (h : List (HostEvent s.width.bits)) : (s.withHost h).width = s.width := rfl
@[simp] theorem State.unit_withHost (h : List (HostEvent s.width.bits)) : (s.withHost h).unit = s.unit.withHost h := rfl
@[simp] theorem State.width_abort : s.abort.width = s.width := rfl
@[simp] theorem State.unit_abort : s.abort.unit = s.unit.abort := rfl
@[simp] theorem State.width_advance : s.advance.width = s.width := rfl
@[simp] theorem State.unit_advance : s.advance.unit = s.unit.advance := rfl
@[simp] theorem State.width_accept (c : Command s.width.bits) (h : List (HostEvent s.width.bits)) :
    (s.accept c h).width = s.width := rfl
@[simp] theorem State.unit_accept (c : Command s.width.bits) (h : List (HostEvent s.width.bits)) :
    (s.accept c h).unit = (s.unit.withHost h).accept c := rfl

/-- Two units with the same fields are the same unit. -/
theorem Dwu.eq_of_fields {u v : Dwu W} (hg : u.granularity = v.granularity) (hh : u.host = v.host)
    (hc : u.cmd = v.cmd) (hw : u.work = v.work) (hd : u.delivered = v.delivered) : u = v := by
  cases u
  cases v
  simp_all

end Sys2Proof.Machine
end

