-- ==== Sys2Proof/Laws/Ops.lean ====
section
/-! SUPPORT. What each shared operation can do, said once: the internal step, an operation's meaning, the whole step. -/

namespace Sys2Proof.Machine

variable {W : Nat}

/-- A unit is idle exactly when no command is in flight. -/
theorem Dwu.isIdle_iff (u : Dwu W) : u.isIdle = true ↔ u.work = .idle := by
  cases h : u.work <;> simp [Dwu.isIdle, h]

/-- The unit's own part of a step: nothing when idle; a count or divide step that goes on; or the delivering step. -/
theorem Dwu.advance_cases (u : Dwu W) :
    (u.work = .idle ∧ u.advance = u) ∨
    (∃ r, u.work = .counting r ∧ r.limb = 0#W ∧
      u.advance = (u.withWork .idle).deliver (.ofInt (countResult u.cmd.x r))) ∨
    (∃ r, u.work = .counting r ∧ r.limb ≠ 0#W ∧ u.advance = u.withWork (.counting (countIter r))) ∨
    (∃ d, u.work = .dividing d ∧ d.i = 0 ∧
      u.advance = (u.withWork .idle).deliver (.ofPair d.quotient d.remainder)) ∨
    (∃ d, u.work = .dividing d ∧ d.i ≠ 0 ∧ u.advance = u.withWork (.dividing (divIter d))) := by
  cases h : u.work with
  | idle => simp [Dwu.advance, h]
  | counting r => by_cases hz : r.limb = 0#W <;> simp [Dwu.advance, Dwu.advanceCount, h, hz]
  | dividing d => by_cases hz : d.i = 0 <;> simp [Dwu.advance, Dwu.advanceDivide, h, hz]

/-- The unit's own part of a step touches neither the host's list nor the command port nor the view. -/
theorem Dwu.advance_frame (u : Dwu W) :
    u.advance.granularity = u.granularity ∧ u.advance.host = u.host ∧ u.advance.cmd = u.cmd := by
  obtain ⟨-, h⟩ | ⟨r, -, -, h⟩ | ⟨r, -, -, h⟩ | ⟨d, -, -, h⟩ | ⟨d, -, -, h⟩ := u.advance_cases <;> simp [h]

/-- A meaning answers a next state, and it is the state with one response delivered or with a command set to work. -/
theorem exec_cases (i : Instr) (s : State) :
    (∃ p, exec i s = .next (s.deliver p)) ∨ (∃ k, exec i s = .next (s.withWork k)) := by
  cases i with
  | bitlen =>
    cases h : s.unit.granularity
    · exact .inl ⟨respondBitlen s.unit.cmd, by simp [exec, execBitlen, h]⟩
    · exact .inr ⟨.counting (countInit s.x), by simp [exec, execBitlen, h]⟩
  | divmod =>
    by_cases hz : s.y.isZero = true
    · exact .inl ⟨.failed .divByZero, by simp [exec, execDivmod, hz, State.raise, State.deliver, Dwu.raise]⟩
    · cases h : s.unit.granularity
      · exact .inl ⟨respondDivmod s.unit.cmd, by simp [exec, execDivmod, hz, h]⟩
      · exact .inr ⟨.dividing (divInit s.x s.y), by simp [exec, execDivmod, hz, h]⟩
  | not => exact .inl ⟨_, rfl⟩
  | and => exact .inl ⟨_, rfl⟩
  | or => exact .inl ⟨_, rfl⟩
  | xor => exact .inl ⟨_, rfl⟩
  | shl => exact .inl ⟨_, rfl⟩
  | shr => exact .inl ⟨_, rfl⟩
  | eq => exact .inl ⟨_, rfl⟩
  | ne => exact .inl ⟨_, rfl⟩
  | lt => exact .inl ⟨_, rfl⟩
  | gt => exact .inl ⟨_, rfl⟩
  | le => exact .inl ⟨_, rfl⟩
  | ge => exact .inl ⟨_, rfl⟩
  | isnz => exact .inl ⟨_, rfl⟩
  | isz => exact .inl ⟨_, rfl⟩
  | add => exact .inl ⟨_, rfl⟩
  | sub => exact .inl ⟨_, rfl⟩
  | mul => exact .inl ⟨_, rfl⟩

/-- The whole step, by what the host does next and whether the unit is idle. -/
theorem step_cases (s : State) :
    (s.unit.host = [] ∧ step s = .next s.advance) ∨
    (∃ rest, s.unit.host = .pause :: rest ∧ step s = .next (s.withHost rest).advance) ∨
    (∃ rest, s.unit.host = .reset :: rest ∧ step s = .next (s.withHost rest).abort) ∨
    (∃ c rest, s.unit.host = .command c :: rest ∧ s.unit.work ≠ .idle ∧ step s = .next s.advance) ∨
    (∃ c rest i, s.unit.host = .command c :: rest ∧ s.unit.work = .idle ∧ decode c.cw = some i ∧
      step s = exec i (s.accept c rest)) ∨
    (∃ c rest, s.unit.host = .command c :: rest ∧ s.unit.work = .idle ∧ decode c.cw = none ∧
      step s = .next ((s.accept c rest).raise .illegalOp)) := by
  have idle := s.unit.isIdle_iff
  match h : s.unit.host with
  | [] => exact .inl ⟨rfl, by simp [step, State.sequence, h]⟩
  | .pause :: rest => exact .inr (.inl ⟨rest, rfl, by simp [step, State.sequence, h]⟩)
  | .reset :: rest => exact .inr (.inr (.inl ⟨rest, rfl, by simp [step, State.sequence, h]⟩))
  | .command c :: rest =>
    refine .inr (.inr (.inr ?_))
    by_cases hi : s.unit.work = .idle
    · have hi' := idle.2 hi
      cases hd : decode c.cw with
      | some i =>
        exact .inr (.inl ⟨c, rest, i, rfl, hi, hd, by simp [step, State.sequence, h, hi', State.runCommand, hd]⟩)
      | none =>
        exact .inr (.inr ⟨c, rest, rfl, hi, hd, by simp [step, State.sequence, h, hi', State.runCommand, hd]⟩)
    · have hi' : s.unit.isIdle = false := by simpa using mt idle.1 hi
      exact .inl ⟨c, rest, rfl, hi, by simp [step, State.sequence, h, hi']⟩

end Sys2Proof.Machine
end

