-- ==== Sys2Proof/Laws/PerInstr.lean ====
section
/-! SUPPORT. Statements made per instruction: the family `Encoding`. -/

/-- The command word of an operation is legal, and the decoder reads the operation back from it (spec/30_encoding.md R51 to
R54). -/
def Sys2Proof.Laws.Encoding.Statement (i : Sys2Proof.Instr) : Prop :=
  Sys2Proof.legalWord (Sys2Proof.encode i) = true ∧ Sys2Proof.decode (Sys2Proof.encode i) = some i

theorem Sys2Proof.Laws.Encoding.not : Sys2Proof.Laws.Encoding.Statement .not := ⟨by decide, by decide⟩

theorem Sys2Proof.Laws.Encoding.and : Sys2Proof.Laws.Encoding.Statement .and := ⟨by decide, by decide⟩

theorem Sys2Proof.Laws.Encoding.or : Sys2Proof.Laws.Encoding.Statement .or := ⟨by decide, by decide⟩

theorem Sys2Proof.Laws.Encoding.xor : Sys2Proof.Laws.Encoding.Statement .xor := ⟨by decide, by decide⟩

theorem Sys2Proof.Laws.Encoding.shl : Sys2Proof.Laws.Encoding.Statement .shl := ⟨by decide, by decide⟩

theorem Sys2Proof.Laws.Encoding.shr : Sys2Proof.Laws.Encoding.Statement .shr := ⟨by decide, by decide⟩

theorem Sys2Proof.Laws.Encoding.eq : Sys2Proof.Laws.Encoding.Statement .eq := ⟨by decide, by decide⟩

theorem Sys2Proof.Laws.Encoding.ne : Sys2Proof.Laws.Encoding.Statement .ne := ⟨by decide, by decide⟩

theorem Sys2Proof.Laws.Encoding.lt : Sys2Proof.Laws.Encoding.Statement .lt := ⟨by decide, by decide⟩

theorem Sys2Proof.Laws.Encoding.gt : Sys2Proof.Laws.Encoding.Statement .gt := ⟨by decide, by decide⟩

theorem Sys2Proof.Laws.Encoding.le : Sys2Proof.Laws.Encoding.Statement .le := ⟨by decide, by decide⟩

theorem Sys2Proof.Laws.Encoding.ge : Sys2Proof.Laws.Encoding.Statement .ge := ⟨by decide, by decide⟩

theorem Sys2Proof.Laws.Encoding.isnz : Sys2Proof.Laws.Encoding.Statement .isnz := ⟨by decide, by decide⟩

theorem Sys2Proof.Laws.Encoding.isz : Sys2Proof.Laws.Encoding.Statement .isz := ⟨by decide, by decide⟩

theorem Sys2Proof.Laws.Encoding.add : Sys2Proof.Laws.Encoding.Statement .add := ⟨by decide, by decide⟩

theorem Sys2Proof.Laws.Encoding.sub : Sys2Proof.Laws.Encoding.Statement .sub := ⟨by decide, by decide⟩

theorem Sys2Proof.Laws.Encoding.bitlen : Sys2Proof.Laws.Encoding.Statement .bitlen := ⟨by decide, by decide⟩

theorem Sys2Proof.Laws.Encoding.mul : Sys2Proof.Laws.Encoding.Statement .mul := ⟨by decide, by decide⟩

theorem Sys2Proof.Laws.Encoding.divmod : Sys2Proof.Laws.Encoding.Statement .divmod := ⟨by decide, by decide⟩
end

