-- ==== Sys2Proof/Laws/Run.lean ====
section
/-! SUPPORT. What proofs about meanings and runs cite: a carry or a borrow as a comparison, a meaning in either view, and how
runs compose. -/

namespace Sys2Proof

/-- A carry is set exactly when the sum lies below the summand. -/
theorem carryOf_iff {W : Nat} (sum summand : Limb W) : carryOf sum summand = true ↔ sum.toNat < summand.toNat := by
  rw [carryOf, decide_eq_true_eq]

/-- A borrow is set exactly when the difference lies above the minuend. -/
theorem borrowOf_iff {W : Nat} (diff minuend : Limb W) : borrowOf diff minuend = true ↔ diff.toNat > minuend.toNat := by
  rw [borrowOf, decide_eq_true_eq, gt_iff_lt]

namespace Machine

/-- In the whole-command view every meaning delivers its response and does nothing else. -/
theorem exec_wholeCommand (i : Instr) (s : State) (h : s.unit.granularity = .wholeCommand) :
    exec i s = .next (s.deliver (respondInstr i s.unit.cmd)) := by
  by_cases hz : s.y.isZero = true
  · have hz' : s.unit.cmd.y.isZero = true := hz
    cases i <;> simp [exec, respondInstr, execDivmod, execBitlen, respondDivmod, h, hz, hz', State.raise, Dwu.raise, State.deliver]
      <;> rfl
  · have hz' : ¬s.unit.cmd.y.isZero = true := hz
    cases i <;> simp [exec, respondInstr, execDivmod, execBitlen, h, hz] <;> rfl

/-- In the bit-serial view `BITLEN` sets its registers. -/
theorem execBitlen_bitSerial (s : State) (h : s.unit.granularity = .bitSerial) :
    exec .bitlen s = .next (s.withWork (.counting (countInit s.x))) := by
  simp [exec, execBitlen, h]

/-- In the bit-serial view `DIVMOD` with a divisor that is not zero sets its registers. -/
theorem execDivmod_bitSerial (s : State) (h : s.unit.granularity = .bitSerial) (hz : s.y.isZero = false) :
    exec .divmod s = .next (s.withWork (.dividing (divInit s.x s.y))) := by
  simp [exec, execDivmod, h, hz]

/-- The division loop starts at zero and zero. -/
@[simp] theorem divAfter_zero {W : Nat} (x y : DW W) : divAfter x y 0 = (DW.zero, DW.zero) := rfl

/-- One more iteration, for the dividend bit whose turn it is. -/
theorem divAfter_succ {W : Nat} (x y : DW W) (m : Nat) :
    divAfter x y (m + 1) = divBody y (divAfter x y m).1 (divAfter x y m).2 (x.bit (x.bitLength - (m + 1))) := rfl

/-- After any number of iterations the rest of the loop leads to where the whole loop leads. -/
theorem divLoop_divAfter {W : Nat} (x y : DW W) (m : Nat) (h : m ≤ x.bitLength) :
    divLoop x y (x.bitLength - m) (divAfter x y m) = divLoop x y x.bitLength (DW.zero, DW.zero) := by
  induction m with
  | zero => rfl
  | succ m ih =>
    rw [← ih (Nat.le_of_succ_le h), show x.bitLength - m = x.bitLength - (m + 1) + 1 by omega, divLoop, divAfter_succ]

/-- A run of no step. -/
theorem run_zero (s : State) : run 0 s = .next s := rfl

/-- A run after a first step that answers a next state. -/
theorem run_succ (k : Nat) (s t : State) (h : step s = .next t) : run (k + 1) s = run k t := by
  have h' : Sys2Proof.core.step s = .next t := h
  simp only [run, Host.Core.run]
  rw [h']

/-- No meaning refuses, so no step does. -/
theorem step_ne_refused (s : State) (r : Refusal) : step s ≠ .refused r := by
  intro hr
  obtain ⟨-, h⟩ | ⟨_, -, h⟩ | ⟨_, -, h⟩ | ⟨_, _, -, -, h⟩ | ⟨c, rest, i, -, -, -, h⟩ | ⟨_, _, -, -, -, h⟩ := step_cases s <;>
    rw [h] at hr
  case inr.inr.inr.inr.inl => obtain ⟨p, hp⟩ | ⟨k, hk⟩ := exec_cases i (s.accept c rest) <;> simp_all
  all_goals cases hr

/-- A run continued. -/
theorem run_add (k j : Nat) (s t : State) (h : run k s = .next t) : run (k + j) s = run j t := by
  induction k generalizing s with
  | zero =>
    cases h
    rw [Nat.zero_add]
  | succ k ih =>
    rw [Nat.succ_add]
    cases hs : step s with
    | next s' =>
      rw [run_succ _ _ _ hs] at h ⊢
      exact ih _ h
    | fault r => cases r
    | refused r => exact absurd hs (step_ne_refused s r)

end Machine
end Sys2Proof
end

