-- ==== Sys2Proof/Tests/Slice0.lean ====
section
/-! SUPPORT. Tests: the checks refuse ill-formed terms, every operation's word decodes to it, one step of each operation, and
for every statement with hypotheses a witness that meets them together. Expected results are the vectors of
spec/95_test_vectors.md and spec/96_test_vectors_continued.md or the words of spec/30_encoding.md R52, as each test says. -/

open Sys2Proof Sys2Proof.Machine

namespace Sys2Proof.Tests

/-! ### WellFormed -/

/-- R54: `rsv = 0b001` with the opcode of `ADD`. -/
theorem test_reservedBitsZero_refuses : reservedBitsZero 0b00110000#8 = false ∧ legalWord 0b00110000#8 = false := by decide

/-- R53: the reserved opcode `0x07`, and the two ends of the reserved range. -/
theorem test_opcodeAssigned_refuses :
    opcodeAssigned 0b00000111#8 = false ∧ legalWord 0b00000111#8 = false ∧ legalWord 0b00010101#8 = false ∧
      legalWord 0b00011111#8 = false ∧ legalWord 0b00000000#8 = false := by decide

/-- The zero value, as an operand. -/
def zero32 : DW 32 := ⟨0#32, 0#32⟩

/-- R61: an operation of one operand with two, or with a shift amount. -/
theorem test_one_operand_form_refuses :
    (Written.mk .not (.two zero32 zero32)).wellFormed = false ∧ (Written.mk .not (.shift zero32 1#32)).wellFormed = false := by
  decide

/-- R61: an operation of two operands with one, or with a shift amount. -/
theorem test_two_operand_form_refuses :
    (Written.mk .add (.one zero32)).wellFormed = false ∧ (Written.mk .add (.shift zero32 1#32)).wellFormed = false := by decide

/-- R61: a shift with one operand, or with two. -/
theorem test_shift_form_refuses :
    (Written.mk .shl (.one zero32)).wellFormed = false ∧ (Written.mk .shl (.two zero32 zero32)).wellFormed = false := by decide

/-! ### Decode: words written from R51 and R52 -/

theorem test_decode_bitwise :
    decode 0b00000001#8 = some .not ∧ decode 0b00000010#8 = some .and ∧ decode 0b00000011#8 = some .or ∧
      decode 0b00000100#8 = some .xor := by decide

theorem test_decode_shift : decode 0b00000101#8 = some .shl ∧ decode 0b00000110#8 = some .shr := by decide

theorem test_decode_relational :
    decode 0b00001000#8 = some .eq ∧ decode 0b00001001#8 = some .ne ∧ decode 0b00001010#8 = some .lt ∧
      decode 0b00001011#8 = some .gt ∧ decode 0b00001100#8 = some .le ∧ decode 0b00001101#8 = some .ge ∧
      decode 0b00001110#8 = some .isnz ∧ decode 0b00001111#8 = some .isz := by decide

theorem test_decode_additive : decode 0b00010000#8 = some .add ∧ decode 0b00010001#8 = some .sub := by decide

theorem test_decode_bitlength : decode 0b00010010#8 = some .bitlen := by decide

theorem test_decode_multiply : decode 0b00010011#8 = some .mul := by decide

theorem test_decode_divide : decode 0b00010100#8 = some .divmod := by decide

/-- R53, R54: a reserved opcode, and reserved bits set. -/
theorem test_decode_illegal :
    decode 0b00000111#8 = none ∧ decode 0b00000000#8 = none ∧ decode 0b00010101#8 = none ∧ decode 0b10010000#8 = none ∧
      decode 0b00110000#8 = none := by decide

/-- spec/95_test_vectors.md E8: the line `ADD x, y` and its tuple; R62: a method name. -/
theorem test_assemble_add :
    assemble "ADD" (.two ⟨0xFFFFFFFF#32, 0#32⟩ ⟨1#32, 0#32⟩) = some ⟨0x10#8, 0xFFFFFFFF#32, 0#32, 1#32, 0#32, 0#32⟩ ∧
      methodNames.lookup "shiftLeft" = some .shl := by decide

/-! ### One step of each operation -/

/-- The next state, if there is one. -/
def next? : Host.Outcome State Fault Refusal → Option State
  | .next t => some t
  | .fault _ => none
  | .refused _ => none

/-- The six fields of a response as numbers, in the order of R57. -/
def fields {W : Nat} (p : Response W) : List Nat :=
  [p.wires.status.toNat, p.wires.rLow.toNat, p.wires.rHigh.toNat, p.wires.r2Low.toNat, p.wires.r2High.toNat,
   p.wires.flag.toNat]

/-- The command of a tuple of R50. -/
def tuple (W : Nat) (cw aLow aHigh bLow bHigh s : Nat) : Command W :=
  ⟨BitVec.ofNat 8 cw, BitVec.ofNat W aLow, BitVec.ofNat W aHigh, BitVec.ofNat W bLow, BitVec.ofNat W bHigh, BitVec.ofNat W s⟩

/-- What one step of a fresh machine answers to a tuple. -/
def answer (w : Width) (cw aLow aHigh bLow bHigh s : Nat) : Option (List (List Nat)) :=
  (next? (step ((State.resetWith w .wholeCommand).present (tuple w.bits cw aLow aHigh bLow bHigh s)))).map
    fun t => t.unit.delivered.map fields

/-- spec/95_test_vectors.md section 2.1. -/
theorem test_not : answer .w32 0x01 0x0000FFFF 0x12345678 0 0 0 = some [[0, 0xFFFF0000, 0xEDCBA987, 0, 0, 0]] := by
  decide +kernel

theorem test_and :
    answer .w32 0x02 0xFF00FF00 0x0F0F0F0F 0x0FF00FF0 0xFFFF0000 0 = some [[0, 0x0F000F00, 0x0F0F0000, 0, 0, 0]] := by
  decide +kernel

theorem test_or :
    answer .w32 0x03 0xFF00FF00 0x0F0F0F0F 0x0FF00FF0 0xFFFF0000 0 = some [[0, 0xFFF0FFF0, 0xFFFF0F0F, 0, 0, 0]] := by
  decide +kernel

theorem test_xor :
    answer .w32 0x04 0xFF00FF00 0x0F0F0F0F 0x0FF00FF0 0xFFFF0000 0 = some [[0, 0xF0F0F0F0, 0xF0F00F0F, 0, 0, 0]] := by
  decide +kernel

/-- spec/95_test_vectors.md section 2.2: the amounts `W` and `W + 1`, where the two formulas meet. -/
theorem test_shl :
    answer .w32 0x05 0x89ABCDEF 0x01234567 0 0 32 = some [[0, 0, 0x89ABCDEF, 0, 0, 0]] ∧
      answer .w32 0x05 0x89ABCDEF 0x01234567 0 0 33 = some [[0, 0, 0x13579BDE, 0, 0, 0]] := by decide +kernel

/-- spec/95_test_vectors.md section 2.2: the amounts 0 and `2W` are not reduced. -/
theorem test_shl_is_not_masked :
    answer .w32 0x05 0x89ABCDEF 0x01234567 0 0 0 = some [[0, 0x89ABCDEF, 0x01234567, 0, 0, 0]] ∧
      answer .w32 0x05 0x89ABCDEF 0x01234567 0 0 64 = some [[0, 0, 0, 0, 0, 0]] := by decide +kernel

theorem test_shr :
    answer .w32 0x06 0x89ABCDEF 0x01234567 0 0 31 = some [[0, 0x02468ACF, 0, 0, 0, 0]] ∧
      answer .w32 0x06 0x89ABCDEF 0x01234567 0 0 33 = some [[0, 0x0091A2B3, 0, 0, 0, 0]] := by decide +kernel

/-- spec/95_test_vectors.md section 2.3, the row "`low` smaller, `high` larger". -/
theorem test_relational :
    [0x08, 0x09, 0x0A, 0x0B, 0x0C, 0x0D].map (fun cw => answer .w32 cw 5 7 7 5 0) =
      [0, 1, 0, 1, 0, 1].map fun b => some [[0, 0, 0, 0, 0, b]] := by decide +kernel

/-- spec/95_test_vectors.md section 2.3, the row "equal, both limbs non-zero". -/
theorem test_relational_equal :
    [0x08, 0x09, 0x0A, 0x0B, 0x0C, 0x0D].map (fun cw => answer .w32 cw 5 7 5 7 0) =
      [1, 0, 0, 0, 1, 1].map fun b => some [[0, 0, 0, 0, 0, b]] := by decide +kernel

/-- spec/42_relational.md R86, R87: only the high limb set. -/
theorem test_zero_tests :
    answer .w32 0x0E 0 1 0 0 0 = some [[0, 0, 0, 0, 0, 1]] ∧ answer .w32 0x0F 0 1 0 0 0 = some [[0, 0, 0, 0, 0, 0]] := by
  decide +kernel

/-- spec/95_test_vectors.md E8. -/
theorem test_add : answer .w32 0x10 0xFFFFFFFF 0 1 0 0 = some [[0, 0, 1, 0, 0, 0]] := by decide +kernel

/-- spec/43_additive.md R91. -/
theorem test_sub : answer .w32 0x11 1 2 2 1 0 = some [[0, 0xFFFFFFFF, 0, 0, 0, 0]] := by decide +kernel

/-- spec/95_test_vectors.md E7, at both widths. -/
theorem test_bitlen :
    answer .w32 0x12 0 1 0 0 0 = some [[0, 33, 0, 0, 0, 0]] ∧ answer .w64 0x12 0 1 0 0 0 = some [[0, 65, 0, 0, 0, 0]] := by
  decide +kernel

/-- spec/96_test_vectors_continued.md M32-4: the carry of `mid` set, four limbs in use. -/
theorem test_mul :
    answer .w32 0x13 0xCAFEBABE 0xDEADBEEF 0x89ABCDEF 0x01234567 0 = some [[0, 0xEA447D62, 0x7EB689F4, 0, 0, 0]] := by
  decide +kernel

/-- spec/96_test_vectors_continued.md M64-1: both carries set. -/
theorem test_mul_w64 :
    answer .w64 0x13 0xFFFFFFFFFFFFFFFF 0 0xFFFFFFFFFFFFFFFF 0 0 = some [[0, 1, 0xFFFFFFFFFFFFFFFE, 0, 0, 0]] := by
  decide +kernel

/-- spec/96_test_vectors_continued.md section 2.7: a divisor above half the range. -/
theorem test_divmod :
    answer .w32 0x14 0xFFFFFFFF 0xFFFFFFFF 0x00000001 0x80000000 0 = some [[0, 1, 0, 0xFFFFFFFE, 0x7FFFFFFF, 0]] := by
  decide +kernel

/-- spec/95_test_vectors.md E11, and zero by zero. -/
theorem test_divmod_by_zero :
    answer .w32 0x14 0 1 0 0 0 = some [[1, 0, 0, 0, 0, 0]] ∧ answer .w32 0x14 0 0 0 0 0 = some [[1, 0, 0, 0, 0, 0]] := by
  decide +kernel

/-- spec/60_exceptions.md R130, R135: an illegal word with a zero `y`. -/
theorem test_illegal_op :
    answer .w32 0x34 5 5 0 0 0 = some [[2, 0, 0, 0, 0, 0]] ∧ answer .w32 0x00 5 5 0 0 0 = some [[2, 0, 0, 0, 0, 0]] := by
  decide +kernel

/-- A bit-serial unit of limb width 32 with a command accepted and nothing delivered. -/
def serial (c : Command Width.w32.bits) (work : Work Width.w32.bits) : Dwu Width.w32.bits := ⟨.bitSerial, [], c, work, []⟩

/-- `DIVMOD 100, 7` (spec/95_test_vectors.md E9). -/
def hundredBySeven : Command Width.w32.bits := tuple 32 0x14 100 0 7 0 0

/-- The divider's registers with quotient, remainder and index as the trace of E9 has them. -/
def e9 (q r i : Nat) : DivRegs Width.w32.bits :=
  ⟨⟨100#32, 0#32⟩, ⟨7#32, 0#32⟩, ⟨BitVec.ofNat 32 q, 0#32⟩, ⟨BitVec.ofNat 32 r, 0#32⟩, i⟩

/-- spec/95_test_vectors.md E9, the trace: DIV_INIT, the iteration for `i = 4`, DIV_DONE. -/
theorem test_divider_trace :
    next? (exec .divmod ⟨.w32, serial hundredBySeven .idle⟩) = some ⟨.w32, serial hundredBySeven (.dividing (e9 0 0 7))⟩ ∧
      next? (step ⟨.w32, serial hundredBySeven (.dividing (e9 0 6 4))⟩) =
        some ⟨.w32, serial hundredBySeven (.dividing (e9 1 5 3))⟩ ∧
      (next? (step ⟨.w32, serial hundredBySeven (.dividing (e9 14 2 0))⟩)).map (fun t => t.unit.delivered.map fields) =
        some [[0, 14, 0, 2, 0, 0]] := by decide +kernel

/-- spec/44_bitlength.md R95, R96: `BITLEN 100` shifts seven times; the first, and the delivering step. -/
theorem test_counter :
    next? (step ⟨.w32, serial (tuple 32 0x12 100 0 0 0 0) (.counting ⟨100#32, 0⟩)⟩) =
        some ⟨.w32, serial (tuple 32 0x12 100 0 0 0 0) (.counting ⟨50#32, 1⟩)⟩ ∧
      (next? (step ⟨.w32, serial (tuple 32 0x12 100 0 0 0 0) (.counting ⟨0#32, 7⟩)⟩)).map
          (fun t => t.unit.delivered.map fields) = some [[0, 7, 0, 0, 0, 0]] := by decide +kernel

/-- The host's two entry points: the table's word decodes, and the very next step runs it (here `NOT` of zero). -/
theorem test_withFetchWord :
    decodeTableWord 8 0x01 = some .not ∧ decodeTableWord 8 0x07 = none ∧
      (next? (step (State.reset.withFetchWord 8 0x01))).map (fun t => t.unit.delivered.map fields) =
        some [[0, 0xFFFFFFFF, 0xFFFFFFFF, 0, 0, 0]] := by decide +kernel

/-- spec/95_test_vectors.md E10 and E12, spec/47_derived_rendering.md R121, R126. -/
theorem test_rendering :
    toDecimalString (⟨0#32, 1#32⟩ : DW 32) = "4294967296".toList ∧ toDecimalString (⟨0#32, 0#32⟩ : DW 32) = [] ∧
      toDebugHex true (⟨0x2A#32, 1#32⟩ : DW 32) = "00000001 0000002A".toList ∧
      toDebugHex false (⟨0x2A#32, 0xABC#32⟩ : DW 32) = "00000abc 0000002a".toList := by decide +kernel

/-! ### Witnesses: the hypotheses of each statement, met together -/

/-- An idle unit that takes whole commands, its host about to do `h`. -/
def whole (h : List (HostEvent Width.w32.bits)) : Dwu Width.w32.bits := ⟨.wholeCommand, h, portAtReset, .idle, []⟩

/-- `ADD 1, 2`. -/
def onePlusTwo : Command Width.w32.bits := tuple 32 0x10 1 0 2 0 0

/-- Another `ADD 1, 2`, different in the field that `ADD` does not read. -/
def onePlusTwoAgain : Command Width.w32.bits := tuple 32 0x10 1 0 2 0 9

/-- A `DIVMOD 100, 7` in flight, in the middle, its host about to do `h`. -/
def midway (h : List (HostEvent Width.w32.bits)) : Dwu Width.w32.bits :=
  ⟨.bitSerial, h, hundredBySeven, .dividing (e9 1 5 3), []⟩

/-- A `BITLEN 100` in flight, in the middle. -/
def counting : Dwu Width.w32.bits := serial (tuple 32 0x12 100 0 0 0 0) (.counting ⟨50#32, 1⟩)

theorem hundredBySeven_decodes : decode hundredBySeven.cw = some .divmod := by decide

theorem midway_inv (h : List (HostEvent Width.w32.bits)) : (midway h).Inv :=
  ⟨rfl, hundredBySeven_decodes, rfl, rfl, by decide, by decide +kernel, by decide +kernel, by decide⟩

theorem counting_inv : counting.Inv := ⟨rfl, by decide, by decide, by decide +kernel⟩

theorem witness_OpcodeMapRows : (0x14#8, 0b10100#5, "DIVMOD", "divmod(x, y)", .xy, .pair, .divmod) ∈ opcodeMap := by
  simp [opcodeMap]

theorem witness_NineteenLegalWords :
    rsvField (tuple 32 0x30 1 0 2 0 0).cw ≠ 0b000#3 ∧ opField (tuple 32 0x07 1 0 2 0 0).cw ∈ reservedOpcodes := by decide

theorem witness_WrittenCommandsRoundTrip :
    (Written.mk .shr (.shift (⟨0xFFFFFFFF#32, 1#32⟩ : DW 32) 0xFFFFFFFF#32)).wellFormed = true ∧
      onePlusTwoAgain.written = some ⟨.add, .two ⟨1#32, 0#32⟩ ⟨2#32, 0#32⟩⟩ := by decide

theorem witness_AssemblerFollowsMnemonics :
    (Written.mk .shl (.shift zero32 1#32)).encode.s ≠ 0#32 ∧
      (Written.mk .add (.two zero32 ⟨1#32, 0#32⟩)).encode.y ≠ DW.zero := by decide

theorem witness_StepRunsTheDecodedOperation :
    (whole [.command onePlusTwo]).work = .idle ∧ (whole [.command onePlusTwo]).host = .command onePlusTwo :: [] ∧
      decode onePlusTwo.cw = some .add := by decide

theorem witness_IllegalWordAnswersIllegalOp :
    (whole [.command (tuple 32 0x30 0 0 0 0 0)]).work = .idle ∧ rsvField (tuple 32 0x30 0 0 0 0 0).cw ≠ 0b000#3 ∧
      (whole [.command (tuple 32 0x1F 0 0 0 0 0)]).work = .idle ∧
      opField (tuple 32 0x1F 0 0 0 0 0).cw ∈ reservedOpcodes := by decide

theorem witness_EveryCommandGetsItsResponse :
    (whole [.command onePlusTwo]).granularity = .wholeCommand ∧ (whole [.command onePlusTwo]).work = .idle ∧
      (whole [.command onePlusTwo]).host = .command onePlusTwo :: [] ∧ decode onePlusTwo.cw = some .add ∧
      ¬(Instr.add = .divmod ∧ onePlusTwo.y.val = 0) := by decide

theorem witness_ResponseDependsOnTheCommandAlone :
    (whole [.command onePlusTwo]).work = .idle ∧
      (whole [.command onePlusTwo]).host = .command onePlusTwo :: ([] : List (Command 32)).map .command ∧
      (Dwu.withHost (serial hundredBySeven .idle) [.command onePlusTwo, .command hundredBySeven]).work = .idle ∧
      (Dwu.withHost (serial hundredBySeven .idle) [.command onePlusTwo, .command hundredBySeven]).host =
        .command onePlusTwo :: [hundredBySeven].map .command := by decide

theorem witness_UnreadFieldsAreIgnored :
    (whole []).work = .idle ∧ onePlusTwo ≠ onePlusTwoAgain ∧ onePlusTwo.cw = onePlusTwoAgain.cw ∧
      (∀ i, decode onePlusTwo.cw = some i → i.reads.operandsOf onePlusTwo = i.reads.operandsOf onePlusTwoAgain) ∧
      (∀ i, decode (tuple 32 0x07 1 0 0 0 0).cw = some i →
        i.reads.operandsOf (tuple 32 0x07 1 0 0 0 0) = i.reads.operandsOf (tuple 32 0x07 2 0 0 0 0)) := by
  refine ⟨by decide, by decide, by decide, fun i h => ?_, fun i h => ?_⟩
  · have h' : decode onePlusTwo.cw = some .add := by decide
    rw [h'] at h
    cases h
    decide
  · have h' : decode (tuple 32 0x07 1 0 0 0 0).cw = none := by decide
    rw [h'] at h
    cases h

theorem witness_BusyUnitAcceptsNothing :
    (midway [.command onePlusTwo]).work ≠ .idle ∧ (midway [.command onePlusTwo]).host = .command onePlusTwo :: [] := by decide

theorem witness_ResetAbortsTheCommandInFlight :
    (midway [.reset]).work ≠ .idle ∧ (midway [.reset]).host = .reset :: [] ∧
      (midway [.reset, .reset, .pause]).host = .reset :: [.reset, .pause] ∧
      (midway [.reset, .command hundredBySeven]).host = .reset :: [.command hundredBySeven] ∧
      [HostEvent.command hundredBySeven] = .command hundredBySeven :: ([] : List (Command 32)).map .command := by decide

theorem witness_ResetChangesNothingElse :
    (midway [.reset, .pause]).work ≠ .idle ∧ (midway [.reset, .pause]).host = .reset :: [.pause] := by decide

theorem witness_IdleUnitWaits :
    (whole []).work = .idle ∧ (whole []).host = [] ∧ (whole [.pause]).work = .idle ∧ (whole [.pause]).host = .pause :: [] := by
  decide

theorem witness_FirstCommandAfterReset :
    (whole [.command onePlusTwo]).work = .idle ∧ (whole [.command onePlusTwo]).host = [.command onePlusTwo] := by decide

/-- A division and a count in flight, a division at its delivering step, and an idle unit about to accept. -/
theorem witness_EveryCommandEnds :
    (midway []).Inv ∧ (midway []).work = .dividing (e9 1 5 3) ∧ counting.Inv ∧ counting.work = .counting ⟨50#32, 1⟩ ∧
      (whole [.command hundredBySeven]).work = .idle ∧ (whole [.command hundredBySeven]).host = .command hundredBySeven :: [] ∧
      (midway []).work ≠ .idle ∧ (∀ rest, (midway []).host ≠ .reset :: rest) ∧
      (serial hundredBySeven (.dividing (e9 14 2 0))).work ≠ .idle ∧
      ∀ rest, (serial hundredBySeven (.dividing (e9 14 2 0))).host ≠ .reset :: rest :=
  ⟨midway_inv [], rfl, counting_inv, rfl, rfl, rfl, by decide, by simp [midway], by decide, by simp [serial]⟩

theorem witness_ResponsesComeInCommandOrder :
    (whole [.command onePlusTwo, .command hundredBySeven]).work = .idle ∧
      (whole [.command onePlusTwo, .command hundredBySeven]).host = [onePlusTwo, hundredBySeven].map .command := by decide

/-- One command of each class, and one of each failure. -/
theorem witness_ResultClasses :
    (decode onePlusTwo.cw = some .add ∧ Instr.add.resultClass = .dw ∧ (respond onePlusTwo).status = .ok) ∧
      (decode (tuple 32 0x0A 1 0 2 0 0).cw = some .lt ∧ Instr.lt.resultClass = .bool ∧
        (respond (tuple 32 0x0A 1 0 2 0 0)).status = .ok) ∧
      (decode (tuple 32 0x12 1 0 2 0 0).cw = some .bitlen ∧ Instr.bitlen.resultClass = .int ∧
        (respond (tuple 32 0x12 1 0 2 0 0)).status = .ok) ∧
      (decode hundredBySeven.cw = some .divmod ∧ Instr.divmod.resultClass = .pair ∧ (respond hundredBySeven).status = .ok) ∧
      (respond (tuple 32 0x14 1 0 0 0 0)).status ≠ .ok ∧ (respond (tuple 32 0x07 1 0 0 0 0)).status ≠ .ok := by
  decide +kernel

theorem witness_OperationsChangeOnlyTheResponse :
    (next? (exec .add ⟨.w32, whole []⟩)).isSome ∧ (next? (exec .divmod ⟨.w32, serial hundredBySeven .idle⟩)).isSome ∧
      (next? (exec .bitlen ⟨.w32, serial (tuple 32 0x12 1 0 0 0 0) .idle⟩)).isSome := by decide +kernel

theorem witness_LimbPrimitives : (32 : Nat) ≥ 32 ∧ shlW (1#32) 32 = 0#32 ∧ shrW (0x80000000#32) 32 = 0#32 ∧ 32 % 2 = 0 := by
  decide

theorem witness_ValuesAndNumbers : (⟨1#32, 2#32⟩ : DW 32).val = (fromLimbs 1#32 2#32).val := rfl

theorem witness_FromNativeZeroExtends : 32 ≤ 32 ∧ 32 < 33 ∧ (fromNative 32 (-1#32)).isSome ∧ fromNative 32 (1#33) = none := by
  decide

theorem witness_BitwiseLimbsAreIndependent :
    (Instr.xor = .not ∨ Instr.xor = .and ∨ Instr.xor = .or ∨ Instr.xor = .xor) ∧
      onePlusTwo.aHigh = hundredBySeven.aHigh ∧ onePlusTwo.bHigh = hundredBySeven.bHigh ∧
      onePlusTwo.aLow = onePlusTwoAgain.aLow ∧ onePlusTwo.bLow = onePlusTwoAgain.bLow := by decide

theorem witness_ShiftIdentities : 64 ≥ 2 * Width.w32.bits ∧ 128 ≥ 2 * Width.w64.bits := by decide

theorem witness_LimbBitLength : (0x80000000#32 : Limb 32) ≠ 0#32 ∧ 31 < limbBitlen (0x80000000#32) := by decide +kernel

theorem witness_BitlenResult :
    (whole []).granularity = .wholeCommand ∧ (whole []).cmd.x.val = 0 ∧ onePlusTwo.x.val ≠ 0 := by decide

theorem witness_SerialBitlenCountsShifts :
    (serial (tuple 32 0x12 100 0 0 0 0) .idle).granularity = .bitSerial ∧
      (serial (tuple 32 0x12 100 0 0 0 0) .idle).hostWaits = true := by decide

theorem witness_BitSelection : 0 < 2 * 32 ∧ 31 < 32 ∧ 32 ≤ 32 ∧ 63 < 2 * 32 := by decide

theorem witness_DivmodByZeroFails : (whole []).cmd.y.val = 0 ∧ hundredBySeven.y.val ≠ 0 := by decide

theorem witness_DivmodLaw :
    ((whole []).accept hundredBySeven).granularity = .wholeCommand ∧ ((whole []).accept hundredBySeven).cmd.y.val ≠ 0 ∧
      0 ≤ hundredBySeven.x.bitLength ∧ 7 ≤ hundredBySeven.x.bitLength := by decide +kernel

theorem witness_DivInitStep :
    (serial (tuple 32 0x14 1 0 0 0 0) .idle).granularity = .bitSerial ∧
      (serial (tuple 32 0x14 1 0 0 0 0) .idle).cmd.y.val = 0 ∧ (serial hundredBySeven .idle).granularity = .bitSerial ∧
      (serial hundredBySeven .idle).cmd.y.val ≠ 0 := by decide

/-- The iterations of E9 for `i = 3` (it subtracts) and for `i = 1` (it does not). -/
theorem witness_DivIterStep :
    ((serial hundredBySeven (.dividing (e9 1 5 3))).hostWaits = true ∧ (e9 1 5 3).i ≥ 1 ∧
      (⟨11#32, 0#32⟩ : DW 32).geFlag (e9 1 5 3).divisor = true) ∧
      ((serial hundredBySeven (.dividing (e9 7 1 1))).hostWaits = true ∧ (e9 7 1 1).i ≥ 1 ∧
        (⟨2#32, 0#32⟩ : DW 32).geFlag (e9 7 1 1).divisor = false) := by decide

theorem witness_DivDoneStep :
    (serial hundredBySeven (.dividing (e9 14 2 0))).hostWaits = true ∧
      (serial hundredBySeven (.dividing (e9 14 2 0))).work = .dividing (e9 14 2 0) ∧ (e9 14 2 0).i = 0 := by decide

theorem witness_DividerShiftsLoseNoBit :
    (midway []).Inv ∧ (midway []).work = .dividing (e9 1 5 3) ∧ (e9 1 5 3).i ≥ 1 := ⟨midway_inv [], rfl, by decide⟩

theorem witness_SerialDivmodDeliversTheLaw :
    (serial hundredBySeven .idle).granularity = .bitSerial ∧ (serial hundredBySeven .idle).cmd.y.val ≠ 0 ∧
      (serial hundredBySeven .idle).hostWaits = true := by decide

theorem witness_SerialRefinesWhole :
    (whole [.command hundredBySeven]).work = .idle ∧
      (whole [.command hundredBySeven]).host = .command hundredBySeven :: [] ∧
      Dwu.hostWaits { whole [.command hundredBySeven] with host := [] } = true := by decide

theorem witness_EveryStepKeepsTheInvariant :
    (State.mk .w32 (midway [])).Inv ∧ (next? (step ⟨.w32, midway []⟩)).isSome ∧ (State.mk .w32 counting).Inv ∧
      (next? (step ⟨.w32, counting⟩)).isSome := ⟨midway_inv [], by decide +kernel, counting_inv, by decide +kernel⟩

theorem witness_DecimalDigitsDenoteTheValue :
    decimalDigits (⟨10#32, 0#32⟩ : DW 32) = 1#32 :: [0#32] ∧ (1#32 : Limb 32) ∈ decimalDigits (⟨10#32, 0#32⟩ : DW 32) ∧
      (⟨0#32, 0#32⟩ : DW 32).val = 0 := by decide +kernel

end Sys2Proof.Tests
end

section
/-! The reasoning rules of the limb primitives and of the double-width value, in the order of their definitions in
Sys2Proof/Machine/Ops.lean, and the two obligations about spec/00_scope.md and spec/10_state.md that they settle. -/

namespace Sys2Proof

variable {W : Nat}

/-! ### Limb primitives (R13 to R17) -/

@[simp] theorem toNat_addW (a b : Limb W) : (addW a b).toNat = (a.toNat + b.toNat) % 2 ^ W :=
  BitVec.toNat_add a b

@[simp] theorem toNat_subW (a b : Limb W) : (subW a b).toNat = (2 ^ W - b.toNat + a.toNat) % 2 ^ W :=
  BitVec.toNat_sub a b

/-- The representative of the difference in `[0, 2^W - 1]`, which R13 asks for. -/
theorem natCast_toNat_subW (a b : Limb W) : ((subW a b).toNat : Int) = ((a.toNat : Int) - b.toNat) % 2 ^ W := by
  have hb : b.toNat ≤ 2 ^ W := b.isLt.le
  calc ((subW a b).toNat : Int)
      = ((a.toNat : Int) - b.toNat + 2 ^ W) % 2 ^ W := by
        rw [toNat_subW]; push_cast [hb]; congr 1; ring
    _ = ((a.toNat : Int) - b.toNat) % 2 ^ W := Int.add_emod_right ..

@[simp] theorem toNat_mulW (a b : Limb W) : (mulW a b).toNat = (a.toNat * b.toNat) % 2 ^ W :=
  BitVec.toNat_mul a b

@[simp] theorem toNat_shlW (v : Limb W) (k : Nat) : (shlW v k).toNat = (v.toNat * 2 ^ k) % 2 ^ W := by
  rw [shlW, BitVec.toNat_shiftLeft, Nat.shiftLeft_eq]

@[simp] theorem toNat_shrW (v : Limb W) (k : Nat) : (shrW v k).toNat = v.toNat / 2 ^ k := by
  rw [shrW, BitVec.toNat_ushiftRight, Nat.shiftRight_eq_div_pow]

@[simp] theorem shlW_zero (v : Limb W) : shlW v 0 = v := BitVec.shiftLeft_zero v

@[simp] theorem shrW_zero (v : Limb W) : shrW v 0 = v := BitVec.ushiftRight_zero v

theorem shlW_eq_zero_of_le (v : Limb W) {k : Nat} (h : W ≤ k) : shlW v k = 0#W :=
  BitVec.shiftLeft_eq_zero h

theorem shrW_eq_zero_of_le (v : Limb W) {k : Nat} (h : W ≤ k) : shrW v k = 0#W :=
  BitVec.ushiftRight_eq_zero h

@[simp] theorem toNat_notW (a : Limb W) : (notW a).toNat = (2 ^ W - 1) - a.toNat := BitVec.toNat_not

@[simp] theorem getLsbD_andW (a b : Limb W) (j : Nat) :
    (andW a b).getLsbD j = (a.getLsbD j && b.getLsbD j) := BitVec.getLsbD_and

@[simp] theorem getLsbD_orW (a b : Limb W) (j : Nat) :
    (orW a b).getLsbD j = (a.getLsbD j || b.getLsbD j) := BitVec.getLsbD_or

@[simp] theorem getLsbD_xorW (a b : Limb W) (j : Nat) :
    (xorW a b).getLsbD j = (a.getLsbD j ^^ b.getLsbD j) := BitVec.getLsbD_xor

/-- The remainder is at most the limb, so writing it in `W` bits loses nothing. -/
@[simp] theorem toNat_loHalf (v : Limb W) : (loHalf v).toNat = v.toNat % 2 ^ halfW W := by
  have hlt : v.toNat % 2 ^ halfW W < 2 ^ W := (Nat.mod_le _ _).trans_lt v.isLt
  rw [loHalf, BitVec.toNat_ofNat, Nat.mod_eq_of_lt hlt]

@[simp] theorem toNat_hiHalf (v : Limb W) : (hiHalf v).toNat = v.toNat / 2 ^ halfW W := toNat_shrW v _

theorem toNat_loHalf_lt (v : Limb W) : (loHalf v).toNat < 2 ^ halfW W := by
  rw [toNat_loHalf]
  exact Nat.mod_lt _ (Nat.two_pow_pos _)

/-- An even width has two halves of `halfW` bits each. -/
theorem two_pow_halfW_mul_self (hW : W % 2 = 0) : 2 ^ halfW W * 2 ^ halfW W = 2 ^ W := by
  have hsum : halfW W + halfW W = W := by unfold halfW; omega
  rw [← Nat.pow_add, hsum]

theorem toNat_hiHalf_lt (hW : W % 2 = 0) (v : Limb W) : (hiHalf v).toNat < 2 ^ halfW W := by
  rw [toNat_hiHalf]
  apply Nat.div_lt_of_lt_mul
  rw [two_pow_halfW_mul_self hW]
  exact v.isLt

theorem toNat_eq_halves (v : Limb W) : v.toNat = (hiHalf v).toNat * 2 ^ halfW W + (loHalf v).toNat := by
  rw [toNat_hiHalf, toNat_loHalf, Nat.div_add_mod']

/-! ### The double-width value (R19, R21, R22, R41) -/

theorem DW.val_def (x : DW W) : x.val = x.high.toNat * 2 ^ W + x.low.toNat := rfl

/-- The low limb is the remainder of the number by `2^W`. -/
@[simp] theorem DW.val_mod (x : DW W) : x.val % 2 ^ W = x.low.toNat := by
  rw [val_def, Nat.mul_add_mod_self_right, Nat.mod_eq_of_lt x.low.isLt]

/-- The high limb is the quotient of the number by `2^W`. -/
@[simp] theorem DW.val_div (x : DW W) : x.val / 2 ^ W = x.high.toNat := by
  rw [val_def, Nat.add_comm, Nat.add_mul_div_right _ _ (Nat.two_pow_pos W), Nat.div_eq_of_lt x.low.isLt, Nat.zero_add]

theorem DW.val_lt (x : DW W) : x.val < 2 ^ (2 * W) := by
  rw [Nat.two_mul, Nat.pow_add]
  apply Nat.lt_mul_of_div_lt _ (Nat.two_pow_pos W)
  rw [val_div]
  exact x.high.isLt

@[simp] theorem DW.ofNat_val (x : DW W) : DW.ofNat W x.val = x := by
  ext1
  · exact BitVec.eq_of_toNat_eq (by rw [ofNat, BitVec.toNat_ofNat, val_mod])
  · rw [ofNat, val_div, BitVec.ofNat_toNat, BitVec.setWidth_eq]

/-- `dw` is a left inverse of `val`. -/
theorem DW.val_injective : Function.Injective (DW.val (W := W)) :=
  Function.LeftInverse.injective DW.ofNat_val

@[simp] theorem DW.val_ofNat (v : Nat) : (DW.ofNat W v).val = v % 2 ^ (2 * W) := by
  rw [val_def, ofNat, BitVec.toNat_ofNat, BitVec.toNat_ofNat, Nat.two_mul, Nat.pow_add, Nat.mod_mul, Nat.mul_comm,
    Nat.add_comm]

@[simp] theorem DW.toNat_bus (x : DW W) : x.bus.toNat = x.val := by
  rw [bus, BitVec.toNat_append, Nat.shiftLeft_eq, val_def, Nat.mul_comm, Nat.two_pow_add_eq_or_of_lt x.low.isLt]

/-! ### The obligations -/

/-- Settles O20: one rule of the limb primitives for each clause, at every width. -/
theorem limbPrimitives : Obligations.LimbPrimitives := fun _ a b k =>
  ⟨toNat_addW a b, natCast_toNat_subW a b, toNat_mulW a b,
    toNat_shlW a k, shlW_eq_zero_of_le a, shlW_zero a,
    toNat_shrW a k, shrW_eq_zero_of_le a, shrW_zero a,
    toNat_notW a, fun j => ⟨getLsbD_andW a b j, getLsbD_orW a b j, getLsbD_xorW a b j⟩,
    toNat_loHalf a, toNat_hiHalf a, toNat_loHalf_lt a, fun hW => toNat_hiHalf_lt hW a, toNat_eq_halves a⟩

/-- Settles O21: `val` reads the limbs off as quotient and remainder by `2^W`, so `dw` inverts it. -/
theorem valuesAndNumbers : Obligations.ValuesAndNumbers := fun _ x _ v =>
  ⟨x.val_def, x.val_lt, fun h => DW.val_injective h, x.ofNat_val, DW.val_ofNat v, x.toNat_bus⟩

end Sys2Proof
end

section
/-! The construction of a value from a native one (spec/10_state.md R25), and the invariant after reset (R38). -/

namespace Sys2Proof.Machine

/-- An idle unit has nothing to keep. -/
theorem Dwu.inv_of_idle {W : Nat} {u : Dwu W} (hidle : u.work = .idle) : u.Inv := by
  simp [Dwu.Inv, hidle]

/-- Settles O51: a unit after reset is idle. -/
theorem resetMeetsTheInvariant : Obligations.ResetMeetsTheInvariant :=
  ⟨fun _ _ => Dwu.inv_of_idle rfl, Dwu.inv_of_idle rfl⟩

/-- Settles O22: a value that fits a limb loses nothing when it is written in `W` bits. -/
theorem fromNativeZeroExtends : Obligations.FromNativeZeroExtends := by
  intro W n v
  refine ⟨fun hn => ⟨fromLimbs (v.setWidth W) 0#W, if_pos hn, ?_, rfl, ?_⟩, fun hn => if_neg (Nat.not_le.2 hn)⟩
  all_goals have hlow : (v.setWidth W).toNat = v.toNat := BitVec.toNat_setWidth_of_le hn
  · exact hlow
  · rw [DW.val_def, fromLimbs, hlow, BitVec.toNat_zero, Nat.zero_mul, Nat.zero_add]

end Sys2Proof.Machine
end

section
/-! The bit-length counter and the division loop: their recursions, and the bounds on the numbers of shifts and iterations
(spec/44_bitlength.md R95, R96, spec/46_divide.md R107, spec/70_reset_and_hazards.md R147, R148). -/

namespace Sys2Proof

variable {W : Nat}

/-- Halving a number that is not zero drops one of its binary digits. -/
theorem size_eq_size_half_add_one {n : Nat} (hn : n ≠ 0) : Nat.size n = Nat.size (n / 2) + 1 := by
  have hbit : Nat.bit n.bodd n.div2 = n := Nat.bit_bodd_div2 n
  have hsize := Nat.size_bit (b := n.bodd) (n := n.div2) (by rwa [hbit])
  rwa [hbit, Nat.div2_val] at hsize

/-- With enough shifts allowed, the loop of R95 adds the number of binary digits of the limb to its count. -/
theorem limbBitlenLoop_eq_add_size (k : Nat) (v : Limb W) (n : Nat) (hk : v.toNat < 2 ^ k) :
    limbBitlenLoop k v n = n + Nat.size v.toNat := by
  induction k generalizing v n with
  | zero =>
    have hv : v.toNat = 0 := by omega
    rw [limbBitlenLoop, hv, Nat.size_zero, Nat.add_zero]
  | succ k ih =>
    rw [limbBitlenLoop]
    split
    case isTrue hv => simp [hv]
    case isFalse hv =>
      have hv' : v.toNat ≠ 0 := fun h => hv (BitVec.eq_of_toNat_eq h)
      have hshift : (shrW v 1).toNat = v.toNat / 2 := toNat_shrW v 1
      rw [ih _ _ (by omega), hshift, size_eq_size_half_add_one hv']
      omega

/-- The limb bit length is the number of binary digits of the limb as a number. -/
theorem limbBitlen_eq_size (v : Limb W) : limbBitlen v = Nat.size v.toNat := by
  rw [limbBitlen, limbBitlenLoop_eq_add_size W v 0 v.isLt, Nat.zero_add]

@[simp] theorem limbBitlen_eq_zero {v : Limb W} : limbBitlen v = 0 ↔ v = 0#W := by
  rw [limbBitlen_eq_size, Nat.size_eq_zero, BitVec.toNat_eq, BitVec.toNat_zero]

/-- One shift of a limb that is not zero takes one from its bit length. -/
theorem limbBitlen_shrW_one_add_one {v : Limb W} (hv : v ≠ 0#W) : limbBitlen (shrW v 1) + 1 = limbBitlen v := by
  have hv' : v.toNat ≠ 0 := fun h => hv (BitVec.eq_of_toNat_eq h)
  rw [limbBitlen_eq_size, limbBitlen_eq_size, toNat_shrW, Nat.pow_one, size_eq_size_half_add_one hv']

theorem limbBitlen_le (v : Limb W) : limbBitlen v ≤ W := by
  rw [limbBitlen_eq_size]
  exact Nat.size_le.2 v.isLt

theorem DW.bitLength_le (x : DW W) : x.bitLength ≤ 2 * W := by
  have hlow := limbBitlen_le x.low
  have hhigh := limbBitlen_le x.high
  rw [DW.bitLength]
  split <;> omega

namespace Machine

/-- The count at the end of a `BITLEN`, which is the bit length of the limb chosen at its start, makes the bit length of
the operand. -/
theorem countResult_limbBitlen_countInit (x : DW W) (limb : Limb W) :
    countResult x ⟨limb, (countInit x).count + limbBitlen (countInit x).limb⟩ = x.bitLength := by
  by_cases hx : x.high = 0#W <;> simp [countResult, countInit, DW.bitLength, hx]

/-- What `DIVMOD` answers when the divisor is not zero: the pair the loop reaches from the registers of DIV_INIT. -/
theorem respondDivmod_of_isZero_eq_false {c : Command W} (hy : c.y.isZero = false) :
    respondDivmod c = .ofPair (divLoop c.x c.y c.x.bitLength (DW.zero, DW.zero)).1
      (divLoop c.x c.y c.x.bitLength (DW.zero, DW.zero)).2 := by
  simp [respondDivmod, hy]

end Machine
end Sys2Proof
end

section
/-! What an operation's meaning answers, in either view: its response, or the start of its internal steps. Settled with it:
the frame of every operation. -/

namespace Sys2Proof.Machine

/-- A meaning delivers the operation's response, or it is `BITLEN` or `DIVMOD` in the bit-serial view and sets its
registers. -/
theorem exec_responds_or_starts (i : Instr) (s : State) :
    exec i s = .next (s.deliver (respondInstr i s.unit.cmd)) ∨
    (s.unit.granularity = .bitSerial ∧ i = .bitlen ∧ exec i s = .next (s.withWork (.counting (countInit s.x)))) ∨
    (s.unit.granularity = .bitSerial ∧ i = .divmod ∧ s.y.isZero = false ∧
      exec i s = .next (s.withWork (.dividing (divInit s.x s.y)))) := by
  cases hg : s.unit.granularity with
  | wholeCommand => exact .inl (exec_wholeCommand i s hg)
  | bitSerial =>
    cases i
    case bitlen => exact .inr (.inl ⟨rfl, rfl, execBitlen_bitSerial s hg⟩)
    case divmod =>
      cases hy : s.y.isZero with
      | true =>
        have hresp : respondInstr .divmod s.unit.cmd = .failed .divByZero := if_pos hy
        have hexec : exec .divmod s = .next (s.raise .divByZero) := if_pos hy
        exact .inl (by rw [hresp]; exact hexec)
      | false => exact .inr (.inr ⟨rfl, rfl, rfl, execDivmod_bitSerial s hg hy⟩)
    all_goals exact .inl rfl

/-- Settles O19: a response delivered changes nothing else, and a start changes the working registers alone. -/
theorem operationsChangeOnlyTheResponse : Obligations.OperationsChangeOnlyTheResponse := by
  intro i w u t ht
  obtain h | ⟨hg, hi, h⟩ | ⟨hg, hi, -, h⟩ := exec_responds_or_starts i ⟨w, u⟩ <;> cases h.symm.trans ht
  · exact ⟨_, rfl, rfl, rfl, rfl, .inl ⟨rfl, _, rfl⟩⟩
  · exact ⟨_, rfl, rfl, rfl, rfl, .inr ⟨.inl hi, hg, rfl⟩⟩
  · exact ⟨_, rfl, rfl, rfl, rfl, .inr ⟨.inr hi, hg, rfl⟩⟩

end Sys2Proof.Machine
end

section
/-! Runs of a command in flight: while the host waits, a busy unit goes its internal steps to the response, which is the one
of `respond` in either view (spec/44_bitlength.md R95, R96, spec/46_divide.md R110 to R113). -/

namespace Sys2Proof.Machine

/-! ### A host that waits -/

section
variable {W : Nat} (u : Dwu W)

@[simp] theorem Dwu.hostWaits_withWork (k : Work W) : (u.withWork k).hostWaits = u.hostWaits := rfl

@[simp] theorem Dwu.withWork_withWork (k k' : Work W) : (u.withWork k).withWork k' = u.withWork k' := rfl

theorem Dwu.withWork_self {k : Work W} (h : u.work = k) : u.withWork k = u := by
  rw [← h]
  rfl

theorem Dwu.hostWaits_of_commands {cs : List (Command W)} (h : u.host = cs.map .command) : u.hostWaits = true := by
  cases cs <;> simp [Dwu.hostWaits, h]

/-! ### One internal step -/

theorem Dwu.advance_counting_zero {r : CountRegs W} (hwork : u.work = .counting r) (hr : r.limb = 0#W) :
    u.advance = (u.withWork .idle).deliver (.ofInt (countResult u.cmd.x r)) := by
  simp [Dwu.advance, Dwu.advanceCount, hwork, hr]

theorem Dwu.advance_counting_nonzero {r : CountRegs W} (hwork : u.work = .counting r) (hr : r.limb ≠ 0#W) :
    u.advance = u.withWork (.counting (countIter r)) := by
  simp [Dwu.advance, Dwu.advanceCount, hwork, hr]

theorem Dwu.advance_dividing_zero {d : DivRegs W} (hwork : u.work = .dividing d) (hd : d.i = 0) :
    u.advance = (u.withWork .idle).deliver (.ofPair d.quotient d.remainder) := by
  simp [Dwu.advance, Dwu.advanceDivide, hwork, hd]

theorem Dwu.advance_dividing_nonzero {d : DivRegs W} (hwork : u.work = .dividing d) (hd : d.i ≠ 0) :
    u.advance = u.withWork (.dividing (divIter d)) := by
  simp [Dwu.advance, Dwu.advanceDivide, hwork, hd]

end

variable {w : Width} (u : Dwu w.bits)

/-- While the host waits, a step of a busy unit is its internal step. -/
theorem step_busy (hbusy : u.work ≠ .idle) (hwait : u.hostWaits = true) : step ⟨w, u⟩ = .next ⟨w, u.advance⟩ := by
  obtain ⟨-, h⟩ | ⟨rest, hhost, -⟩ | ⟨rest, hhost, -⟩ | ⟨-, -, -, -, h⟩ | ⟨-, -, -, -, hidle, -⟩ | ⟨-, -, -, hidle, -⟩ :=
    step_cases ⟨w, u⟩
  · exact h
  · simp [Dwu.hostWaits, show u.host = .pause :: rest from hhost] at hwait
  · simp [Dwu.hostWaits, show u.host = .reset :: rest from hhost] at hwait
  · exact h
  · exact absurd hidle hbusy
  · exact absurd hidle hbusy

/-- An idle unit accepts the command presented and runs it. -/
theorem step_accepts {c : Command w.bits} {rest : List (HostEvent w.bits)} (hidle : u.work = .idle)
    (hhost : u.host = .command c :: rest) : step ⟨w, u⟩ = (State.accept ⟨w, u⟩ c rest).runCommand := by
  simp [step, State.sequence, hhost, u.isIdle_iff.2 hidle]

/-! ### The internal steps up to the response -/

/-- A `BITLEN` in flight makes as many shifts as the limb has bits, and delivers with all of them counted. -/
theorem run_counting {r : CountRegs w.bits} (hwork : u.work = .counting r) (hwait : u.hostWaits = true) :
    run (limbBitlen r.limb + 1) ⟨w, u⟩ =
      .next ⟨w, (u.withWork .idle).deliver (.ofInt (countResult u.cmd.x ⟨r.limb, r.count + limbBitlen r.limb⟩))⟩ := by
  induction hm : limbBitlen r.limb generalizing u r with
  | zero =>
    have hr : r.limb = 0#w.bits := limbBitlen_eq_zero.1 hm
    rw [run_succ _ _ _ (step_busy u (by simp [hwork]) hwait), u.advance_counting_zero hwork hr]
    rfl
  | succ m ih =>
    have hr : r.limb ≠ 0#w.bits := fun hr => by rw [limbBitlen_eq_zero.2 hr] at hm; omega
    have hm' : limbBitlen (countIter r).limb = m := by
      have h : limbBitlen (countIter r).limb + 1 = limbBitlen r.limb := limbBitlen_shrW_one_add_one hr
      omega
    have hcount : (countIter r).count + m = r.count + (m + 1) := Nat.add_right_comm r.count 1 m
    rw [run_succ _ _ _ (step_busy u (by simp [hwork]) hwait), u.advance_counting_nonzero hwork hr,
      ih (u.withWork _) rfl hwait hm', hcount]
    rfl

/-- A `DIVMOD` in flight makes as many iterations as its index says, and delivers the pair the loop reaches. -/
theorem run_dividing {d : DivRegs w.bits} (hwork : u.work = .dividing d) (hwait : u.hostWaits = true) :
    run (d.i + 1) ⟨w, u⟩ =
      .next ⟨w, (u.withWork .idle).deliver
        (.ofPair (divLoop d.dividend d.divisor d.i (d.quotient, d.remainder)).1
          (divLoop d.dividend d.divisor d.i (d.quotient, d.remainder)).2)⟩ := by
  induction hi : d.i generalizing u d with
  | zero =>
    rw [run_succ _ _ _ (step_busy u (by simp [hwork]) hwait), u.advance_dividing_zero hwork hi]
    rfl
  | succ i ih =>
    have hi' : (divIter d).i = i := by simp [divIter, hi]
    rw [run_succ _ _ _ (step_busy u (by simp [hwork]) hwait),
      u.advance_dividing_nonzero hwork (by omega), ih (u.withWork _) rfl hwait hi']
    simp [divIter, hi, divLoop]

/-- Settles O37: the shifts counted from zero make the bit length of the limb, and so of the operand. -/
theorem serialBitlenCountsShifts : Obligations.SerialBitlenCountsShifts := by
  intro w u hg
  refine ⟨execBitlen_bitSerial ⟨w, u⟩ hg, fun hwait => ?_⟩
  have hrun := run_counting (u.withWork (.counting (countInit u.cmd.x))) rfl hwait
  rw [Dwu.cmd_withWork, countResult_limbBitlen_countInit] at hrun
  exact hrun

/-! ### From the command to its response -/

theorem respond_of_decode_some {W : Nat} {c : Command W} {i : Instr} (h : decode c.cw = some i) :
    respond c = respondInstr i c := by
  simp [respond, h]

theorem respond_of_decode_none {W : Nat} {c : Command W} (h : decode c.cw = none) : respond c = .failed .illegalOp := by
  simp [respond, h]

/-- The step that accepts a command delivers its response, or sets the registers of a `BITLEN` or a `DIVMOD`. -/
theorem step_responds_or_starts {c : Command w.bits} {rest : List (HostEvent w.bits)} (hidle : u.work = .idle)
    (hhost : u.host = .command c :: rest) :
    step ⟨w, u⟩ = .next ⟨w, ((u.withHost rest).accept c).deliver (respond c)⟩ ∨
    (respond c = respondBitlen c ∧
      step ⟨w, u⟩ = .next ⟨w, ((u.withHost rest).accept c).withWork (.counting (countInit c.x))⟩) ∨
    (respond c = respondDivmod c ∧ c.y.isZero = false ∧
      step ⟨w, u⟩ = .next ⟨w, ((u.withHost rest).accept c).withWork (.dividing (divInit c.x c.y))⟩) := by
  have haccept := step_accepts u hidle hhost
  cases hdecode : decode c.cw with
  | none =>
    have hrun : (State.accept ⟨w, u⟩ c rest).runCommand = .next ((State.accept ⟨w, u⟩ c rest).raise .illegalOp) := by
      simp [State.runCommand, hdecode]
    rw [respond_of_decode_none hdecode]
    exact .inl (haccept.trans hrun)
  | some i =>
    have hrun : (State.accept ⟨w, u⟩ c rest).runCommand = exec i (State.accept ⟨w, u⟩ c rest) := by
      simp [State.runCommand, hdecode]
    rw [haccept.trans hrun, respond_of_decode_some hdecode]
    obtain h | ⟨-, rfl, h⟩ | ⟨-, rfl, hy, h⟩ := exec_responds_or_starts i (State.accept ⟨w, u⟩ c rest)
    · exact .inl h
    · exact .inr (.inl ⟨rfl, h⟩)
    · exact .inr (.inr ⟨rfl, hy, h⟩)

/-- A command presented to an idle unit, in either view, is answered with the response of `respond` within `2W + 2`
steps, if the host waits meanwhile; nothing but the command port and the host's list has changed besides. -/
theorem exists_run_respond {c : Command w.bits} {rest : List (HostEvent w.bits)} (hidle : u.work = .idle)
    (hhost : u.host = .command c :: rest) (hwait : (u.withHost rest).hostWaits = true) :
    ∃ k, 1 ≤ k ∧ k ≤ 2 * w.bits + 2 ∧
      run k ⟨w, u⟩ = .next ⟨w, ((u.withHost rest).accept c).deliver (respond c)⟩ := by
  have hback : ((u.withHost rest).accept c).withWork .idle = (u.withHost rest).accept c := Dwu.withWork_self _ hidle
  obtain h | ⟨hresp, h⟩ | ⟨hresp, hy, h⟩ := step_responds_or_starts u hidle hhost
  · exact ⟨1, le_rfl, by omega, run_succ 0 _ _ h⟩
  · have hrun := run_counting (((u.withHost rest).accept c).withWork (.counting (countInit c.x))) rfl hwait
    rw [Dwu.cmd_withWork, Dwu.cmd_accept, countResult_limbBitlen_countInit, Dwu.withWork_withWork, hback] at hrun
    have hbound := limbBitlen_le (countInit c.x).limb
    refine ⟨limbBitlen (countInit c.x).limb + 1 + 1, by omega, by omega, ?_⟩
    rw [run_succ _ _ _ h, hrun, hresp]
    rfl
  · have hrun := run_dividing (((u.withHost rest).accept c).withWork (.dividing (divInit c.x c.y))) rfl hwait
    rw [Dwu.withWork_withWork, hback] at hrun
    have hbound : (divInit c.x c.y).i ≤ 2 * w.bits := c.x.bitLength_le
    refine ⟨(divInit c.x c.y).i + 1 + 1, by omega, by omega, ?_⟩
    rw [run_succ _ _ _ h, hrun, hresp, respondDivmod_of_isZero_eq_false hy]
    rfl

/-- Settles O8: each unit answers with `respond c`, which reads the command and nothing else. -/
theorem responseDependsOnTheCommandAlone : Obligations.ResponseDependsOnTheCommandAlone := by
  intro w u v c nextU nextV hu hhostU hv hhostV
  obtain ⟨j, -, -, hj⟩ := exists_run_respond u hu hhostU (Dwu.hostWaits_of_commands _ rfl)
  obtain ⟨k, -, -, hk⟩ := exists_run_respond v hv hhostV (Dwu.hostWaits_of_commands _ rfl)
  exact ⟨respond c, j, k, hj, hk⟩

/-- Settles O13: the unit after reset is an idle unit, so O8 speaks of it and of any other. -/
theorem firstCommandAfterReset : Obligations.FirstCommandAfterReset :=
  ⟨fun _ _ => ⟨rfl, rfl⟩, fun w g u c hu hhost =>
    responseDependsOnTheCommandAlone w ((Dwu.reset g).withHost [.command c]) u c [] [] rfl rfl hu hhost⟩

end Sys2Proof.Machine
end

section
/-! The unit and its host between commands: an idle unit waits or accepts, a busy one leaves the host alone, and a list of
commands is answered in its order (spec/20_memory.md R43, R46, R47, spec/70_reset_and_hazards.md R144, R146). -/

namespace Sys2Proof.Machine

/-! ### The unit's own part of a step and the host's list -/

section
variable {W : Nat} (u : Dwu W)

theorem Dwu.advance_idle (hidle : u.work = .idle) : u.advance = u := by
  simp [Dwu.advance, hidle]

/-- The internal step does not read the host's list. -/
theorem Dwu.advance_withHost (h : List (HostEvent W)) : (u.withHost h).advance = u.advance.withHost h := by
  obtain ⟨hwork, hu⟩ | ⟨r, hwork, hr, hu⟩ | ⟨r, hwork, hr, hu⟩ | ⟨d, hwork, hd, hu⟩ | ⟨d, hwork, hd, hu⟩ :=
    u.advance_cases <;> rw [hu]
  · exact (u.withHost h).advance_idle hwork
  · exact (u.withHost h).advance_counting_zero hwork hr
  · exact (u.withHost h).advance_counting_nonzero hwork hr
  · exact (u.withHost h).advance_dividing_zero hwork hd
  · exact (u.withHost h).advance_dividing_nonzero hwork hd

/-- The internal step of a command in flight makes progress: the unit becomes idle, or the count goes up, or the index
goes down. -/
theorem Dwu.work_advance_ne (hbusy : u.work ≠ .idle) : u.advance.work ≠ u.work := by
  obtain ⟨hwork, -⟩ | ⟨r, hwork, -, hu⟩ | ⟨r, hwork, -, hu⟩ | ⟨d, hwork, -, hu⟩ | ⟨d, hwork, hd, hu⟩ := u.advance_cases
  · exact absurd hwork hbusy
  · simp [hu, hwork]
  · have hcount : (countIter r).count ≠ r.count := Nat.succ_ne_self r.count
    rw [hu, hwork, Dwu.work_withWork]
    exact fun h => hcount (congrArg CountRegs.count (Work.counting.inj h))
  · simp [hu, hwork]
  · have hindex : (divIter d).i ≠ d.i := Nat.sub_one_ne_self hd
    rw [hu, hwork, Dwu.work_withWork]
    exact fun h => hindex (congrArg DivRegs.i (Work.dividing.inj h))

end

variable {w : Width} (u : Dwu w.bits)

/-! ### One step -/

theorem step_of_host_nil (hhost : u.host = []) : step ⟨w, u⟩ = .next ⟨w, u.advance⟩ := by
  simp [step, State.sequence, hhost, State.advance]

theorem step_of_host_pause {rest : List (HostEvent w.bits)} (hhost : u.host = .pause :: rest) :
    step ⟨w, u⟩ = .next ⟨w, (u.withHost rest).advance⟩ := by
  simp [step, State.sequence, hhost, State.advance, State.withHost]

/-- A command with a legal word runs the meaning of the operation its word selects. -/
theorem State.runCommand_of_decode_some {s : State} {i : Instr} (h : decode s.unit.cmd.cw = some i) :
    s.runCommand = exec i s := by
  simp [State.runCommand, h]

/-! ### The obligations -/

/-- Settles O10: a busy unit's step is its internal step, which commutes with taking the command away from the host. -/
theorem busyUnitAcceptsNothing : Obligations.BusyUnitAcceptsNothing := by
  intro w u c rest hbusy hhost
  obtain ⟨-, hhost', hcmd⟩ := u.advance_frame
  have hwithout : step ⟨w, u.withHost []⟩ = .next ⟨w, u.advance.withHost []⟩ := by
    rw [step_of_host_nil (u.withHost []) rfl, u.advance_withHost]
  have hwith : step ⟨w, u⟩ = .next ⟨w, u.advance⟩ :=
    step_busy u hbusy (by simp [Dwu.hostWaits, hhost])
  exact ⟨u.advance, hwithout, hwith, hhost', hcmd, u.work_advance_ne hbusy⟩

/-- Settles O15, by induction on the commands: after the first is answered the unit is idle with the others presented. -/
theorem responsesComeInCommandOrder : Obligations.ResponsesComeInCommandOrder := by
  intro w u cs hidle hhost
  induction cs generalizing u with
  | nil => exact ⟨0, u, Nat.zero_le _, run_zero _, hidle, hhost, rfl, (List.append_nil _).symm⟩
  | cons c cs ih =>
    obtain ⟨j, -, hj, hfirst⟩ := exists_run_respond u hidle hhost (Dwu.hostWaits_of_commands _ rfl)
    obtain ⟨k, t, hk, hothers, htidle, hthost, htview, htdelivered⟩ :=
      ih (((u.withHost (cs.map .command)).accept c).deliver (respond c)) hidle rfl
    have hbound : j + k ≤ (c :: cs).length * (2 * w.bits + 2) := by
      rw [List.length_cons, Nat.succ_mul]
      omega
    have hrun : run (j + k) ⟨w, u⟩ = .next ⟨w, t⟩ := (run_add j k _ _ hfirst).trans hothers
    exact ⟨j + k, t, hbound, hrun, htidle, hthost, htview, by simp [htdelivered]⟩

/-- Settles O5: an idle unit accepts the command, and the command's word decides the meaning that runs. -/
theorem stepRunsTheDecodedOperation : Obligations.StepRunsTheDecodedOperation := by
  intro w u c rest i hidle hhost hdecode
  exact (step_accepts u hidle hhost).trans (State.runCommand_of_decode_some hdecode)

/-- Settles O12: the part of a step that is an idle unit's own changes nothing. -/
theorem idleUnitWaits : Obligations.IdleUnitWaits := by
  intro w u hidle
  constructor
  · intro hhost
    rw [step_of_host_nil u hhost, u.advance_idle hidle]
  · intro rest hhost
    rw [step_of_host_pause u hhost, (u.withHost rest).advance_idle hidle]
    rfl

end Sys2Proof.Machine
end

section
/-! The decoder and the encoder: the opcode map read both ways, and the operands a command word's operation reads
(spec/30_encoding.md R50 to R56, R61). -/

namespace Sys2Proof

/-! ### The command word -/

/-- Every operation's command word decodes to it. -/
@[simp] theorem decode_encode (i : Instr) : decode (encode i) = some i := by
  cases i with
  | not => exact Laws.Encoding.not.2
  | and => exact Laws.Encoding.and.2
  | or => exact Laws.Encoding.or.2
  | xor => exact Laws.Encoding.xor.2
  | shl => exact Laws.Encoding.shl.2
  | shr => exact Laws.Encoding.shr.2
  | eq => exact Laws.Encoding.eq.2
  | ne => exact Laws.Encoding.ne.2
  | lt => exact Laws.Encoding.lt.2
  | gt => exact Laws.Encoding.gt.2
  | le => exact Laws.Encoding.le.2
  | ge => exact Laws.Encoding.ge.2
  | isnz => exact Laws.Encoding.isnz.2
  | isz => exact Laws.Encoding.isz.2
  | add => exact Laws.Encoding.add.2
  | sub => exact Laws.Encoding.sub.2
  | bitlen => exact Laws.Encoding.bitlen.2
  | mul => exact Laws.Encoding.mul.2
  | divmod => exact Laws.Encoding.divmod.2

@[simp] theorem rsvField_encode (i : Instr) : rsvField (encode i) = 0b000#3 :=
  BitVec.extractLsb'_append_eq_left ..

@[simp] theorem opField_encode (i : Instr) : opField (encode i) = i.opcode :=
  BitVec.extractLsb'_append_eq_right ..

/-- The two fields are the whole word (R51). -/
theorem rsvField_append_opField (cw : BitVec 8) : rsvField cw ++ opField cw = cw :=
  (BitVec.extractLsb'_append_extractLsb'_eq_extractLsb' (w := 8) rfl).trans BitVec.extractLsb'_eq_self

theorem opcode_of_decodeOp : ∀ {op : BitVec 5} {i : Instr}, decodeOp op = some i → i.opcode = op := by
  decide

/-- A command word decodes to an operation exactly when it is the encoder's word for it (R52). -/
theorem decode_eq_some_iff {cw : BitVec 8} {i : Instr} : decode cw = some i ↔ encode i = cw := by
  refine ⟨fun h => ?_, fun h => h ▸ decode_encode i⟩
  unfold decode at h
  split at h
  case isTrue => cases h
  case isFalse hrsv =>
    rw [← rsvField_append_opField cw, not_not.1 hrsv, ← opcode_of_decodeOp h, encode]

/-! ### The written form of a command -/

section
variable {W : Nat}

@[simp] theorem Written.cw_encode (m : Written W) : m.encode.cw = Sys2Proof.encode m.op := by
  cases m with | mk op operands => cases operands <;> rfl

/-- The operands are of the form the operation takes exactly when they are what it reads from the encoding. -/
theorem Written.wellFormed_iff (m : Written W) :
    m.wellFormed = true ↔ m.op.reads.operandsOf m.encode = m.operands := by
  obtain ⟨op, operands⟩ := m
  cases hr : op.reads <;> cases operands <;>
    simp [Written.wellFormed, Reads.operandsOf, Written.encode, Command.x, Command.y, hr]

/-- What an operation reads from a command is of the form it takes. -/
theorem wellFormed_operandsOf (i : Instr) (c : Command W) : (Written.mk i (i.reads.operandsOf c)).wellFormed = true := by
  cases hr : i.reads <;> simp [Written.wellFormed, Reads.operandsOf, hr]

theorem Command.written_eq_some_iff {c : Command W} {m : Written W} :
    c.written = some m ↔ decode c.cw = some m.op ∧ m.op.reads.operandsOf c = m.operands := by
  obtain ⟨op, operands⟩ := m
  cases hd : decode c.cw with
  | none => simp [Command.written, hd]
  | some i =>
    simp only [Command.written, hd, Option.some.injEq, Written.mk.injEq]
    exact and_congr_right fun hi => by rw [hi]

end

/-- Settles O3: the decoder inverts the encoder on command words, and a written command is well-formed exactly when its
operation reads the operands back from the encoding. -/
theorem writtenCommandsRoundTrip : Obligations.WrittenCommandsRoundTrip := by
  constructor
  · intro W m hm
    exact Command.written_eq_some_iff.2 ⟨by simp, m.wellFormed_iff.1 hm⟩
  · rintro W c ⟨op, operands⟩ hc
    obtain ⟨hop, hoperands⟩ := Command.written_eq_some_iff.1 hc
    simp only at hop hoperands
    subst hoperands
    have hwf := wellFormed_operandsOf op c
    exact ⟨hwf, (Written.cw_encode _).trans (decode_eq_some_iff.1 hop), (Written.wellFormed_iff _).1 hwf⟩

/-! ### The opcode map (R52 to R54) -/

/-- The row of an operation, read off the model's columns. -/
def opcodeRow (i : Instr) : BitVec 8 × BitVec 5 × String × String × Reads × ResultClass × Instr :=
  (encode i, i.opcode, i.mnemonic, i.sourceForm, i.reads, i.resultClass, i)

theorem opcodeMap_eq_map_opcodeRow : opcodeMap = allInstrs.map opcodeRow := rfl

theorem mem_allInstrs (i : Instr) : i ∈ allInstrs := by
  cases i <;> decide

/-- Settles O1: the table is the list of the operations' own rows, and each row's word is the encoder's. -/
theorem opcodeMapRows : Obligations.OpcodeMapRows := by
  unfold Obligations.OpcodeMapRows
  rw [opcodeMap_eq_map_opcodeRow]
  refine ⟨fun cw op m f r k i hrow => ?_, fun i => ?_, by rw [List.length_map]; rfl⟩
  · obtain ⟨j, -, hj⟩ := List.mem_map.1 hrow
    cases hj
    exact ⟨decode_encode i, rfl, opField_encode i, rsvField_encode i, rfl, rfl, rfl, rfl⟩
  · exact ⟨_, _, _, _, _, _, List.mem_map_of_mem (mem_allInstrs i)⟩

theorem isSome_decodeOp_iff : ∀ op : BitVec 5, (decodeOp op).isSome ↔ op ∉ reservedOpcodes := by
  decide

/-- The legal words (R53, R54). -/
theorem isSome_decode_iff (cw : BitVec 8) :
    (decode cw).isSome ↔ rsvField cw = 0b000#3 ∧ opField cw ∉ reservedOpcodes := by
  unfold decode
  split
  case isTrue hrsv => simp [hrsv]
  case isFalse hrsv => simp [not_not.1 hrsv, isSome_decodeOp_iff]

/-- Settles O2: the two clauses of legality decide each word, and the counts are read off all 256 of them. -/
theorem nineteenLegalWords : Obligations.NineteenLegalWords := by
  refine ⟨isSome_decode_iff, by decide +kernel, by decide +kernel, rfl, fun W c hill => ?_⟩
  have hnone : decode c.cw = none := by
    rw [← Option.not_isSome_iff_eq_none, isSome_decode_iff]
    tauto
  exact Machine.respond_of_decode_none hnone

/-! ### Written lines and the response port (R57, R59, R61) -/

theorem instrNamed_mnemonic (i : Instr) : instrNamed i.mnemonic = some i := by
  cases i <;> decide +kernel

/-- Settles O4: a mnemonic names its own operation, and only the form with the operand writes the field. -/
theorem assemblerFollowsMnemonics : Obligations.AssemblerFollowsMnemonics := by
  intro W i form
  refine ⟨by simp [assemble, instrNamed_mnemonic], fun hs => ?_, fun hy => ?_⟩
  · cases form with
    | shift x s => exact ⟨x, s, rfl⟩
    | one x => exact absurd rfl hs
    | two x y => exact absurd rfl hs
  · cases form with
    | two x y => exact ⟨x, y, rfl⟩
    | one x => exact absurd rfl hy
    | shift x s => exact absurd rfl hy

@[simp] theorem Response.status_wires {W : Nat} (p : Response W) : p.wires.status = p.status.code := by
  cases p <;> rfl

@[simp] theorem Status.ofCode_code (s : Status) : Status.ofCode s.code = some s := by
  cases s <;> rfl

theorem Status.code_ne_three (s : Status) : s.code ≠ 0b11#2 := by
  cases s <;> decide

/-- Settles O16: the port shows the status by its code, and the codes are read back. -/
theorem statusCodes : Obligations.StatusCodes := by
  refine ⟨fun W r r2 b => ⟨rfl, rfl, rfl⟩, fun W f => ⟨rfl, rfl, rfl, rfl⟩, fun W => rfl, fun W => rfl, fun W p => ?_, rfl⟩
  rw [p.status_wires]
  exact ⟨p.status.code_ne_three, p.status.ofCode_code⟩

end Sys2Proof
end

section
/-! Long division on double-width values: the numbers behind the shift by one, the comparison and the subtraction of the
loop of spec/46_divide.md R107, and the law they keep (R109). -/

namespace Sys2Proof

variable {W : Nat}

/-! ### Bits, shift and order of the numbers (R76, R82, R107, R108) -/

@[simp] theorem DW.val_zero : (DW.zero : DW W).val = 0 := by
  simp [DW.val_def, DW.zero]

/-- The divisor test of R107 is a test of the number. -/
theorem DW.isZero_iff (y : DW W) : y.isZero = true ↔ y.val = 0 := by
  simp [DW.isZero, DW.val_def, BitVec.toNat_eq, and_comm]

/-- Bit `k` of the number is in the low limb for `k < W`, else in the high limb (R108). -/
theorem DW.testBit_val (x : DW W) (k : Nat) :
    x.val.testBit k = if k < W then x.low.getLsbD k else x.high.getLsbD (k - W) := by
  rw [DW.val_def, Nat.mul_comm, Nat.testBit_two_pow_mul_add _ x.low.isLt]
  rfl

theorem toNat_shrW_mod_two_beq_one (v : Limb W) (k : Nat) : ((shrW v k).toNat % 2 == 1) = v.getLsbD k := by
  rw [toNat_shrW, BitVec.getLsbD, Nat.testBit_eq_decide_div_mod_eq]
  rfl

theorem DW.bit_eq_testBit (x : DW W) (k : Nat) : x.bit k = x.val.testBit k := by
  rw [DW.bit, DW.testBit_val, toNat_shrW_mod_two_beq_one, toNat_shrW_mod_two_beq_one]

/-- The two formulas of R76 move every bit up by `s`, across the limbs. -/
theorem DW.val_shl (x : DW W) (s : Nat) : (x.shl s).val = (x.val * 2 ^ s) % 2 ^ (2 * W) := by
  apply Nat.eq_of_testBit_eq
  intro k
  rw [Nat.testBit_mod_two_pow, Nat.testBit_mul_two_pow, DW.testBit_val, DW.testBit_val, DW.shl]
  by_cases hs : s > W <;> by_cases hk : k < W
  · simp only [if_pos hs, if_pos hk, BitVec.getLsbD_zero]
    simp [show ¬s ≤ k by omega]
  · have hbit : k - W - (s - W) = k - s := by omega
    simp only [if_pos hs, if_neg hk, shlW, BitVec.getLsbD_shiftLeft, hbit]
    grind
  · simp only [if_neg hs, if_pos hk, shlW, BitVec.getLsbD_shiftLeft]
    grind
  · have hcross : W - s + (k - W) = k - s := by omega
    have hbit : k - W - s = k - s - W := by omega
    simp only [if_neg hs, if_neg hk, shlW, shrW, getLsbD_orW, BitVec.getLsbD_shiftLeft, BitVec.getLsbD_ushiftRight,
      hcross, hbit]
    grind

/-- The high limb decides, on a tie the low limb. -/
theorem DW.ltFlag_iff (x y : DW W) : x.ltFlag y = true ↔ x.val < y.val := by
  have hlt {a b : DW W} (h : a.high.toNat < b.high.toNat) : a.val < b.val := by
    rw [← DW.val_div, ← DW.val_div] at h
    exact Nat.lt_of_div_lt_div h
  simp only [DW.ltFlag, Bool.or_eq_true, Bool.and_eq_true, decide_eq_true_eq, beq_iff_eq, BitVec.toNat_eq]
  obtain h | h | h := lt_trichotomy x.high.toNat y.high.toNat
  · simp [h, hlt h]
  · simp [DW.val_def, h]
  · simp [h.not_gt, h.ne', (hlt h).not_gt]

theorem DW.geFlag_iff (x y : DW W) : x.geFlag y = true ↔ y.val ≤ x.val := by
  rw [← not_lt, ← DW.ltFlag_iff, DW.geFlag, Bool.not_eq_true', Bool.not_eq_true]

/-! ### Subtraction (R91) -/

/-- The low stage: the difference of the low limbs, with `2^W` borrowed where it would be negative. -/
theorem natCast_toNat_subW_borrow (a b : Limb W) :
    ((subW a b).toNat : Int) = a.toNat - b.toNat + (ofFlag (W := W) (borrowOf (subW a b) a)).toNat * 2 ^ W := by
  have ha := a.isLt
  have hb := b.isLt
  have hsub := toNat_subW a b
  by_cases hle : b.toNat ≤ a.toNat
  · have hval : (subW a b).toNat = a.toNat - b.toNat := by
      rw [hsub, show 2 ^ W - b.toNat + a.toNat = a.toNat - b.toNat + 2 ^ W by omega, Nat.add_mod_right,
        Nat.mod_eq_of_lt (by omega)]
    have hborrow : borrowOf (subW a b) a = false := by
      rw [← Bool.not_eq_true, borrowOf_iff]
      omega
    simp only [hborrow, ofFlag]
    simp [hval, hle]
  · have hval : (subW a b).toNat = 2 ^ W - b.toNat + a.toNat := by
      rw [hsub, Nat.mod_eq_of_lt (by omega)]
    have hborrow : borrowOf (subW a b) a = true := by
      rw [borrowOf_iff]
      omega
    have hone : (1 : Nat) % 2 ^ W = 1 := Nat.mod_eq_of_lt (by omega)
    simp only [hborrow, ofFlag]
    simp [hval, hone, hb.le]
    ring

/-- R91 subtracts the numbers, modulo `2^(2W)`. -/
theorem DW.natCast_val_sub (x y : DW W) : ((x.sub y).val : Int) = ((x.val : Int) - y.val) % 2 ^ (2 * W) := by
  have hlow := natCast_toNat_subW_borrow x.low y.low
  set b : Int := ((ofFlag (W := W) (borrowOf (subW x.low y.low) x.low)).toNat : Int)
  have hhigh : ((x.sub y).high.toNat : Int) = (x.high.toNat - y.high.toNat - b) % 2 ^ W := by
    rw [show (x.sub y).high = subW _ _ from rfl, natCast_toNat_subW, natCast_toNat_subW, Int.emod_sub_emod]
  have hsplit := Int.mul_ediv_add_emod (x.high.toNat - y.high.toNat - b) (2 ^ W)
  rw [← hhigh] at hsplit
  set k : Int := (x.high.toNat - y.high.toNat - b) / 2 ^ W
  have hval : (x.val : Int) - y.val = (x.sub y).val + 2 ^ (2 * W) * k := by
    rw [DW.val_def, DW.val_def, DW.val_def, show (x.sub y).low = subW x.low y.low from rfl, Nat.two_mul, pow_add]
    push_cast
    rw [hlow]
    linear_combination (-2 ^ W : Int) * hsplit
  have hlt : ((x.sub y).val : Int) < 2 ^ (2 * W) := mod_cast (x.sub y).val_lt
  rw [hval, Int.add_mul_emod_self_left, Int.emod_eq_of_lt (Int.natCast_nonneg _) hlt]

theorem DW.val_sub_of_le {x y : DW W} (h : y.val ≤ x.val) : (x.sub y).val = x.val - y.val := by
  have hx := x.val_lt
  zify [h]
  rw [DW.natCast_val_sub, Int.emod_eq_of_lt (by omega) (by zify at hx; omega)]

/-! ### The shifts of the divider (R107) -/

theorem DW.val_shl1 {v : DW W} (h : 2 * v.val < 2 ^ (2 * W)) : v.shl1.val = 2 * v.val := by
  rw [DW.shl1, DW.val_shl, Nat.pow_one, Nat.mul_comm, Nat.mod_eq_of_lt h]

/-- Where the lowest bit is free, setting it adds one. -/
theorem DW.val_setBit0 {v : DW W} (hW : 0 < W) (heven : v.val % 2 = 0) : v.setBit0.val = v.val + 1 := by
  have hlow : 2 * (v.low.toNat / 2) = v.low.toNat := by
    have hmod : v.low.toNat % 2 = v.val % 2 := by
      rw [← DW.val_mod, Nat.mod_mod_of_dvd _ (dvd_pow_self 2 hW.ne')]
    omega
  have hor : (orW v.low 1#W).toNat = v.low.toNat + 1 := by
    rw [orW, BitVec.toNat_or, BitVec.toNat_one hW, ← hlow]
    exact (Nat.two_pow_add_eq_or_of_lt (i := 1) (by decide) _).symm
  rw [DW.val_def, DW.val_def, DW.setBit0, hor, Nat.add_assoc]

theorem DW.val_setBit0_shl1 {v : DW W} (h : 2 * v.val + 1 < 2 ^ (2 * W)) : v.shl1.setBit0.val = 2 * v.val + 1 := by
  have hshl : v.shl1.val = 2 * v.val := DW.val_shl1 (by omega)
  have hW : 0 < W := Nat.pos_of_ne_zero fun hzero => by simp [hzero] at h
  rw [DW.val_setBit0 hW (by omega), hshl]

namespace Machine

theorem val_shiftedRemainder {r : DW W} {b : Bool} (h : 2 * r.val + b.toNat < 2 ^ (2 * W)) :
    (shiftedRemainder r b).val = 2 * r.val + b.toNat := by
  cases b
  · exact DW.val_shl1 h
  · exact DW.val_setBit0_shl1 h

/-- One iteration keeps the law of R109: if `n` is split by the divisor, so is `n` with one more bit. -/
theorem divBody_law {y q r : DW W} {n : Nat} {b : Bool} (hn : n = q.val * y.val + r.val) (hr : r.val < y.val)
    (hfit : 2 * n + b.toNat < 2 ^ (2 * W)) :
    2 * n + b.toNat = (divBody y q r b).1.val * y.val + (divBody y q r b).2.val ∧
      (divBody y q r b).2.val < y.val := by
  have hshifted : (shiftedRemainder r b).val = 2 * r.val + b.toNat := val_shiftedRemainder (by omega)
  have hq : q.val ≤ q.val * y.val := Nat.le_mul_of_pos_right _ (by omega)
  have hb : b.toNat ≤ 1 := Bool.toNat_le b
  by_cases hge : (shiftedRemainder r b).geFlag y = true
  · have hle := (DW.geFlag_iff _ _).1 hge
    have hquot : q.shl1.setBit0.val = 2 * q.val + 1 := DW.val_setBit0_shl1 (by omega)
    simp only [divBody, if_pos hge, DW.val_sub_of_le hle, hquot, hshifted]
    rw [Nat.add_mul, Nat.mul_assoc]
    omega
  · have hlt := mt (DW.geFlag_iff _ _).2 hge
    have hquot : q.shl1.val = 2 * q.val := DW.val_shl1 (by omega)
    simp only [divBody, if_neg hge, hquot, hshifted]
    rw [Nat.mul_assoc]
    omega

end Machine

/-! ### The loop (R107, R109) -/

theorem DW.val_lt_two_pow_bitLength (x : DW W) : x.val < 2 ^ x.bitLength := by
  have hlimb (v : Limb W) : v.toNat < 2 ^ limbBitlen v := by
    rw [limbBitlen_eq_size]
    exact Nat.lt_size_self _
  rw [DW.bitLength]
  split
  case isTrue =>
    rw [Nat.pow_add, Nat.mul_comm]
    apply Nat.lt_mul_of_div_lt _ (Nat.two_pow_pos W)
    rw [DW.val_div]
    exact hlimb x.high
  case isFalse h =>
    have hhigh : x.high = 0#W := not_not.1 h
    simpa [DW.val_def, hhigh] using hlimb x.low

/-- The bits of a number from `i` up are those from `i + 1` up with bit `i` put below them. -/
theorem div_two_pow_eq_two_mul_add_testBit (n i : Nat) : n / 2 ^ i = 2 * (n / 2 ^ (i + 1)) + (n.testBit i).toNat := by
  rw [Nat.toNat_testBit, Nat.pow_succ, ← Nat.div_div_eq_div_mul, Nat.div_add_mod]

namespace Machine

/-- The loop invariant of R109, for the dividend bits that the first `m` iterations have consumed. -/
theorem divAfter_law {x y : DW W} (hy : 0 < y.val) {m : Nat} (hm : m ≤ x.bitLength) :
    x.val / 2 ^ (x.bitLength - m) = (divAfter x y m).1.val * y.val + (divAfter x y m).2.val ∧
      (divAfter x y m).2.val < y.val := by
  induction m with
  | zero =>
    have hnone : x.val / 2 ^ x.bitLength = 0 := Nat.div_eq_of_lt x.val_lt_two_pow_bitLength
    simpa [hnone] using hy
  | succ m ih =>
    obtain ⟨hdiv, hrem⟩ := ih (by omega)
    rw [show x.bitLength - m = x.bitLength - (m + 1) + 1 by omega] at hdiv
    have hbits := div_two_pow_eq_two_mul_add_testBit x.val (x.bitLength - (m + 1))
    have hfit : x.val / 2 ^ (x.bitLength - (m + 1)) < 2 ^ (2 * W) := (Nat.div_le_self _ _).trans_lt x.val_lt
    rw [hbits] at hfit ⊢
    rw [divAfter_succ, DW.bit_eq_testBit]
    exact divBody_law hdiv hrem hfit

/-- The whole loop, from zero and zero, gives floor quotient and remainder. -/
theorem val_divLoop {x y : DW W} (hy : 0 < y.val) :
    (divLoop x y x.bitLength (DW.zero, DW.zero)).1.val = x.val / y.val ∧
      (divLoop x y x.bitLength (DW.zero, DW.zero)).2.val = x.val % y.val := by
  have hloop := divLoop_divAfter x y x.bitLength le_rfl
  rw [Nat.sub_self] at hloop
  obtain ⟨hdiv, hrem⟩ := divAfter_law (x := x) hy le_rfl
  rw [Nat.sub_self, Nat.pow_zero, Nat.div_one] at hdiv
  rw [← hloop]
  rw [Nat.mul_comm, Nat.add_comm] at hdiv
  obtain ⟨hq, hr⟩ := (Nat.div_mod_unique hy).2 ⟨hdiv.symm, hrem⟩
  exact ⟨hq.symm, hr.symm⟩

end Machine
end Sys2Proof
end

section
/-! What a response can be: it reads the operands alone, it has the shape of its result class, and it fails for a zero
divisor only (spec/30_encoding.md R55, R58, R60). -/

namespace Sys2Proof.Machine

variable {W : Nat}

/-! ### Unread fields (R55) -/

/-- The response is that of the canonical encoding, in which every field the operation does not read is zero. -/
theorem respondInstr_encode_operandsOf (i : Instr) (c : Command W) :
    respondInstr i (Written.mk i (i.reads.operandsOf c)).encode = respondInstr i c := by
  cases i <;> rfl

theorem respond_eq_of_operandsOf_eq {c d : Command W} (hcw : c.cw = d.cw)
    (hread : ∀ i, decode c.cw = some i → i.reads.operandsOf c = i.reads.operandsOf d) : respond c = respond d := by
  cases hdecode : decode c.cw with
  | none => rw [respond_of_decode_none hdecode, respond_of_decode_none (hcw ▸ hdecode)]
  | some i =>
    rw [respond_of_decode_some hdecode, respond_of_decode_some (hcw ▸ hdecode), ← respondInstr_encode_operandsOf i c,
      hread i hdecode, respondInstr_encode_operandsOf]

/-- Settles O9: an idle unit in either view answers with `respond`, which the fields not read do not change. -/
theorem unreadFieldsAreIgnored : Obligations.UnreadFieldsAreIgnored := by
  intro w u c d hidle hcw hread
  obtain ⟨j, -, -, hj⟩ := exists_run_respond (u.withHost [.command c]) hidle rfl rfl
  obtain ⟨k, -, -, hk⟩ := exists_run_respond (u.withHost [.command d]) hidle rfl rfl
  rw [← respond_eq_of_operandsOf_eq hcw hread] at hk
  exact ⟨respond c, j, k, hj, hk⟩

/-! ### Result classes (R58) -/

/-- The response of an operation has the shape of its result class; only that of `DIVMOD` can fail. -/
theorem respondInstr_cases (i : Instr) (c : Command W) :
    (i.resultClass = .dw ∧ ∃ r, respondInstr i c = .ofDW r) ∨
    (i.resultClass = .bool ∧ ∃ b, respondInstr i c = .ofBool b) ∨
    (i.resultClass = .int ∧ respondInstr i c = .ofInt c.x.bitLength) ∨
    (i.resultClass = .pair ∧ i = .divmod ∧ respondInstr i c = respondDivmod c) := by
  cases i
  case not | and | or | xor | shl | shr | add | sub | mul => exact .inl ⟨rfl, _, rfl⟩
  case eq | ne | lt | gt | le | ge | isnz | isz => exact .inr (.inl ⟨rfl, _, rfl⟩)
  case bitlen => exact .inr (.inr (.inl ⟨rfl, rfl⟩))
  case divmod => exact .inr (.inr (.inr ⟨rfl, rfl, rfl⟩))

theorem respondDivmod_of_isZero {c : Command W} (hy : c.y.isZero = true) : respondDivmod c = .failed .divByZero :=
  if_pos hy

/-- A `DIVMOD` that does not fail answers floor quotient and remainder (R109). -/
theorem respondDivmod_eq_ok {c : Command W} {q r : DW W} {flag : Bool} (h : respondDivmod c = .ok q r flag) :
    flag = false ∧ q.val = c.x.val / c.y.val ∧ r.val = c.x.val % c.y.val := by
  cases hy : c.y.isZero with
  | true => cases (respondDivmod_of_isZero hy).symm.trans h
  | false =>
    have hpos : 0 < c.y.val := Nat.pos_of_ne_zero fun hzero => by simp [c.y.isZero_iff.2 hzero] at hy
    cases (respondDivmod_of_isZero_eq_false hy).symm.trans h
    exact ⟨rfl, val_divLoop hpos⟩

/-- At either width a limb can hold any bit length. -/
theorem bitLength_lt_two_pow {w : Width} (x : DW w.bits) : x.bitLength < 2 ^ w.bits := by
  have hwidth : 2 * w.bits < 2 ^ w.bits := by cases w <;> decide
  exact x.bitLength_le.trans_lt hwidth

theorem wires_of_status_ne_ok {p : Response W} (h : p.status ≠ .ok) : p.wires = ⟨p.status.code, 0, 0, 0, 0, 0#1⟩ := by
  cases p with
  | ok r r2 flag => exact absurd rfl h
  | failed f => rfl

/-- Settles O17: by the class of the operation, `PAIR` by the division law. -/
theorem resultClasses : Obligations.ResultClasses := by
  intro w c
  refine ⟨fun i r r2 flag hdecode hok => ?_, wires_of_status_ne_ok⟩
  rw [respond_of_decode_some hdecode] at hok
  obtain ⟨hclass, r', h⟩ | ⟨hclass, b, h⟩ | ⟨hclass, h⟩ | ⟨hclass, -, h⟩ := respondInstr_cases i c
  · cases h.symm.trans hok
    simp [hclass]
  · cases h.symm.trans hok
    simp [hclass]
  · cases h.symm.trans hok
    simp [hclass, Nat.mod_eq_of_lt (bitLength_lt_two_pow c.x)]
  · simpa [hclass] using respondDivmod_eq_ok (h.symm.trans hok)

/-! ### The whole command in one step (R60) -/

/-- Every operation completes, but `DIVMOD` with a zero divisor. -/
theorem status_respondInstr {i : Instr} {c : Command W} (hdiv : ¬(i = .divmod ∧ c.y.val = 0)) :
    (respondInstr i c).status = .ok := by
  obtain ⟨-, r, h⟩ | ⟨-, b, h⟩ | ⟨-, h⟩ | ⟨-, hi, h⟩ := respondInstr_cases i c <;> rw [h]
  · rfl
  · rfl
  · rfl
  · have hy : c.y.isZero = false := by
      rw [← Bool.not_eq_true, DW.isZero_iff]
      exact fun hzero => hdiv ⟨hi, hzero⟩
    rw [respondDivmod_of_isZero_eq_false hy]
    rfl

/-- The command on the port of a unit that takes whole commands is answered at once. -/
theorem State.runCommand_wholeCommand {s : State} (hview : s.unit.granularity = .wholeCommand) :
    s.runCommand = .next (s.deliver (respond s.unit.cmd)) := by
  cases hdecode : decode s.unit.cmd.cw with
  | none =>
    rw [respond_of_decode_none hdecode]
    simp [State.runCommand, hdecode, State.raise, State.deliver, Dwu.raise]
  | some i => rw [respond_of_decode_some hdecode, State.runCommand_of_decode_some hdecode, exec_wholeCommand i s hview]

/-- Settles O7: the accepted command is answered in the same step with the response of `exec(W, cmd)`. -/
theorem everyCommandGetsItsResponse : Obligations.EveryCommandGetsItsResponse := by
  intro w u c rest hview hidle hhost
  refine ⟨(step_accepts u hidle hhost).trans (State.runCommand_wholeCommand hview), fun i hdecode hdiv => ?_⟩
  rw [respond_of_decode_some hdecode]
  exact status_respondInstr hdiv

end Sys2Proof.Machine
end

section
/-! The bitwise logic array (spec/40_bitwise.md R70 to R74): the four operations on the limbs are the same operations on the
value on one bus, and so on the number. -/

namespace Sys2Proof

variable {W : Nat}

/-! ### The value on one bus, and the number -/

@[simp] theorem DW.bus_not (x : DW W) : x.not.bus = ~~~x.bus := BitVec.not_append.symm

@[simp] theorem DW.bus_and (x y : DW W) : (x.and y).bus = x.bus &&& y.bus := BitVec.and_append.symm

@[simp] theorem DW.bus_or (x y : DW W) : (x.or y).bus = x.bus ||| y.bus := BitVec.or_append.symm

@[simp] theorem DW.bus_xor (x y : DW W) : (x.xor y).bus = x.bus ^^^ y.bus := BitVec.xor_append.symm

theorem DW.val_not (x : DW W) : x.not.val = (2 ^ (2 * W) - 1) - x.val := by
  rw [← DW.toNat_bus, DW.bus_not, BitVec.toNat_not, DW.toNat_bus, Nat.two_mul]

theorem DW.val_and (x y : DW W) : (x.and y).val = x.val &&& y.val := by
  rw [← DW.toNat_bus, DW.bus_and, BitVec.toNat_and, DW.toNat_bus, DW.toNat_bus]

theorem DW.val_or (x y : DW W) : (x.or y).val = x.val ||| y.val := by
  rw [← DW.toNat_bus, DW.bus_or, BitVec.toNat_or, DW.toNat_bus, DW.toNat_bus]

theorem DW.val_xor (x y : DW W) : (x.xor y).val = x.val ^^^ y.val := by
  rw [← DW.toNat_bus, DW.bus_xor, BitVec.toNat_xor, DW.toNat_bus, DW.toNat_bus]

theorem DW.not_involutive : Function.Involutive (DW.not (W := W)) := fun _ =>
  DW.ext BitVec.not_not BitVec.not_not

namespace Machine

/-! ### What an operation of class DW does (R57, R58) -/

/-- An operation of class DW is no `BITLEN` and no `DIVMOD`: in either view it delivers its result and changes nothing
else. -/
theorem exec_of_respondInstr_ofDW {i : Instr} {w : Width} (u : Dwu w.bits) {r : DW w.bits}
    (hclass : i.resultClass = .dw) (hr : respondInstr i u.cmd = .ofDW r) :
    exec i ⟨w, u⟩ = .next ⟨w, { u with delivered := u.delivered ++ [.ok r DW.zero false] }⟩ := by
  obtain h | ⟨-, rfl, -⟩ | ⟨-, rfl, -⟩ := exec_responds_or_starts i ⟨w, u⟩
  · rw [h, hr]
    rfl
  · cases hclass
  · cases hclass

/-! ### Limb by limb (R74) -/

/-- One function of a limb of each operand gives both limbs of the result, which is delivered in every case. -/
theorem exists_exec_limbwise {i : Instr} (hi : i = .not ∨ i = .and ∨ i = .or ∨ i = .xor) (w : Width) :
    ∃ f : Limb w.bits → Limb w.bits → Limb w.bits, ∀ u : Dwu w.bits,
      exec i ⟨w, u⟩ = .next ⟨w, { u with delivered := u.delivered ++
        [.ok ⟨f u.cmd.aLow u.cmd.bLow, f u.cmd.aHigh u.cmd.bHigh⟩ DW.zero false] }⟩ := by
  obtain rfl | rfl | rfl | rfl := hi
  · exact ⟨fun a _ => notW a, fun u => exec_of_respondInstr_ofDW u rfl rfl⟩
  · exact ⟨andW, fun u => exec_of_respondInstr_ofDW u rfl rfl⟩
  · exact ⟨orW, fun u => exec_of_respondInstr_ofDW u rfl rfl⟩
  · exact ⟨xorW, fun u => exec_of_respondInstr_ofDW u rfl rfl⟩

/-! ### The obligations -/

/-- Settles O23: the law is that of the complement of the value on one bus. -/
theorem notResult : Obligations.NotResult :=
  ⟨decode_encode .not, fun _ u =>
    ⟨exec_of_respondInstr_ofDW u rfl rfl, rfl, rfl, u.cmd.x.val_not, DW.not_involutive u.cmd.x⟩⟩

/-- Settles O24: each number is the operation of the numbers of the operands, and so is each of its bits. -/
theorem andOrXorResult : Obligations.AndOrXorResult := by
  refine ⟨decode_encode .and, decode_encode .or, decode_encode .xor, fun w u =>
    ⟨exec_of_respondInstr_ofDW u rfl rfl, exec_of_respondInstr_ofDW u rfl rfl, exec_of_respondInstr_ofDW u rfl rfl,
      rfl, rfl, rfl, fun k => ⟨?_, ?_, ?_⟩⟩⟩
  · rw [DW.val_and, Nat.testBit_and]
  · rw [DW.val_or, Nat.testBit_or]
  · rw [DW.val_xor, Nat.testBit_xor]

/-- Settles O25: the two units' results come from one function of the limbs, applied to the low limbs and to the high. -/
theorem bitwiseLimbsAreIndependent : Obligations.BitwiseLimbsAreIndependent := by
  intro i hi w u v
  obtain ⟨f, hf⟩ := exists_exec_limbwise hi w
  exact ⟨_, _, hf u, hf v, congrArg₂ f, congrArg₂ f⟩

end Machine
end Sys2Proof
end

section
/-! The shifter, `SHL` and `SHR` (spec/41_shift.md): the number behind the mirrored formulas, and the identities of R78
read off from the two laws on the numbers. -/

namespace Sys2Proof

variable {W : Nat}

/-- The mirrored formulas of R77 move every bit down by `s`, across the limbs. -/
theorem DW.val_shr (x : DW W) (s : Nat) : (x.shr s).val = x.val / 2 ^ s := by
  apply Nat.eq_of_testBit_eq
  intro k
  rw [Nat.testBit_div_two_pow, DW.testBit_val, DW.testBit_val, DW.shr]
  by_cases hs : s > W <;> by_cases hk : k < W
  · have hbit : s - W + k = k + s - W := by omega
    simp only [if_pos hs, if_pos hk, if_neg (show ¬k + s < W by omega), shrW, BitVec.getLsbD_ushiftRight, hbit]
  · simp only [if_pos hs, if_neg hk, if_neg (show ¬k + s < W by omega), BitVec.getLsbD_zero]
    exact (BitVec.getLsbD_of_ge _ _ (by omega)).symm
  · have hcross : k - (W - s) = k + s - W := by omega
    simp only [if_neg hs, if_pos hk, shrW, shlW, getLsbD_orW, BitVec.getLsbD_ushiftRight, BitVec.getLsbD_shiftLeft,
      Nat.add_comm s k, hcross]
    by_cases hlow : k + s < W
    · simp [hlow, show k < W - s by omega]
    · simp [hlow, hk, show ¬k < W - s by omega, BitVec.getLsbD_of_ge x.low (k + s) (by omega)]
  · have hbit : s + (k - W) = k + s - W := by omega
    simp only [if_neg hs, if_neg hk, if_neg (show ¬k + s < W by omega), shrW, BitVec.getLsbD_ushiftRight, hbit]

/-! ### The identities (R78) -/

@[simp] theorem DW.shl_zero (x : DW W) : x.shl 0 = x :=
  DW.val_injective (by rw [DW.val_shl, Nat.pow_zero, Nat.mul_one, Nat.mod_eq_of_lt x.val_lt])

@[simp] theorem DW.shr_zero (x : DW W) : x.shr 0 = x :=
  DW.val_injective (by rw [DW.val_shr, Nat.pow_zero, Nat.div_one])

theorem DW.shl_eq_zero_of_le (x : DW W) {k : Nat} (hk : 2 * W ≤ k) : x.shl k = DW.zero :=
  DW.val_injective (by
    rw [DW.val_shl, DW.val_zero, Nat.mod_eq_zero_of_dvd (Dvd.dvd.mul_left (pow_dvd_pow 2 hk) _)])

theorem DW.shr_eq_zero_of_le (x : DW W) {k : Nat} (hk : 2 * W ≤ k) : x.shr k = DW.zero :=
  DW.val_injective (by
    rw [DW.val_shr, DW.val_zero, Nat.div_eq_of_lt (x.val_lt.trans_le (Nat.pow_le_pow_right Nat.two_pos hk))])

theorem DW.shl_shl (x : DW W) (a b : Nat) : (x.shl a).shl b = x.shl (a + b) :=
  DW.val_injective (by rw [DW.val_shl, DW.val_shl, DW.val_shl, Nat.mod_mul_mod, Nat.mul_assoc, Nat.pow_add])

theorem DW.shr_shr (x : DW W) (a b : Nat) : (x.shr a).shr b = x.shr (a + b) :=
  DW.val_injective (by rw [DW.val_shr, DW.val_shr, DW.val_shr, Nat.div_div_eq_div_mul, Nat.pow_add])

namespace Machine

/-! ### The obligations -/

/-- Settles O26: `SHL` is of class DW, and its law is that of the number, for every amount. -/
theorem shlResult : Obligations.ShlResult :=
  ⟨decode_encode .shl, fun _ u =>
    ⟨exec_of_respondInstr_ofDW u rfl rfl, rfl, u.cmd.x.val_shl u.cmd.s.toNat⟩⟩

/-- Settles O27: `SHR` is of class DW, and its law is that of the number, for every amount. -/
theorem shrResult : Obligations.ShrResult :=
  ⟨decode_encode .shr, fun _ u =>
    ⟨exec_of_respondInstr_ofDW u rfl rfl, rfl, u.cmd.x.val_shr u.cmd.s.toNat⟩⟩

/-- Settles O28: a power of two is multiplied or divided out, and `val` is injective. -/
theorem shiftIdentities : Obligations.ShiftIdentities := fun _ x =>
  ⟨x.shl_zero, x.shr_zero, fun _ hk => ⟨x.shl_eq_zero_of_le hk, x.shr_eq_zero_of_le hk⟩,
    fun a b => ⟨x.shl_shl a b, x.shr_shr a b⟩⟩

end Machine
end Sys2Proof
end

section
/-! The comparator (spec/42_relational.md): each flag, which the model computes limb by limb, is a relation of the numbers
(R80 to R87), and the six comparisons are their total order (R88). -/

namespace Sys2Proof

variable {W : Nat}

/-! ### The flags on the limbs and on the numbers (R80 to R87) -/

theorem DW.eqFlag_iff_limbs (x y : DW W) : x.eqFlag y = true ↔ x.low = y.low ∧ x.high = y.high := by
  rw [DW.eqFlag, Bool.and_eq_true, beq_iff_eq, beq_iff_eq]

/-- Equal limbs are equal values, and `val` is injective. -/
theorem DW.eqFlag_iff (x y : DW W) : x.eqFlag y = true ↔ x.val = y.val := by
  rw [DW.eqFlag_iff_limbs, ← DW.ext_iff, DW.val_injective.eq_iff]

theorem DW.ltFlag_iff_limbs (x y : DW W) :
    x.ltFlag y = true ↔ x.high.toNat < y.high.toNat ∨ (x.high = y.high ∧ x.low.toNat < y.low.toNat) := by
  rw [DW.ltFlag, Bool.or_eq_true, Bool.and_eq_true, decide_eq_true_eq, decide_eq_true_eq, beq_iff_eq]

/-- The flag of `LE` as R84 composes it. -/
theorem DW.ltFlag_or_eqFlag_iff (x y : DW W) : (x.ltFlag y || x.eqFlag y) = true ↔ x.val ≤ y.val := by
  rw [Bool.or_eq_true, DW.ltFlag_iff, DW.eqFlag_iff, le_iff_lt_or_eq]

/-- The flag of `GT` as R83 composes it. -/
theorem DW.not_ltFlag_or_eqFlag_iff (x y : DW W) : (!(x.ltFlag y || x.eqFlag y)) = true ↔ y.val < x.val := by
  rw [Bool.not_eq_true', ← Bool.not_eq_true, DW.ltFlag_or_eqFlag_iff, not_le]

/-- Less, equal and greater exclude each other, and one of them is the case. -/
theorem DW.order_flags_trichotomy (x y : DW W) :
    (x.ltFlag y = true ∧ x.eqFlag y = false ∧ (!(x.ltFlag y || x.eqFlag y)) = false) ∨
    (x.ltFlag y = false ∧ x.eqFlag y = true ∧ (!(x.ltFlag y || x.eqFlag y)) = false) ∨
    (x.ltFlag y = false ∧ x.eqFlag y = false ∧ (!(x.ltFlag y || x.eqFlag y)) = true) := by
  simp only [← Bool.not_eq_true, DW.ltFlag_iff, DW.eqFlag_iff, DW.not_ltFlag_or_eqFlag_iff]
  omega

/-- R27 and the test of R87 are each other's negation. -/
theorem DW.nonzero_eq_not_isZero (x : DW W) : x.nonzero = !x.isZero :=
  (Bool.not_and ..).symm

theorem DW.nonzero_iff_limbs (x : DW W) : x.nonzero = true ↔ x.low ≠ 0#W ∨ x.high ≠ 0#W := by
  rw [DW.nonzero, Bool.or_eq_true, bne_iff_ne, bne_iff_ne]

namespace Machine

/-! ### What an operation of class BOOL does (R57, R58) -/

/-- An operation of class BOOL is no `BITLEN` and no `DIVMOD`: in either view it delivers its response and changes nothing
else. -/
theorem exec_of_resultClass_bool {i : Instr} (hclass : i.resultClass = .bool) (s : State) :
    exec i s = .next (s.deliver (respondInstr i s.unit.cmd)) := by
  obtain h | ⟨-, rfl, -⟩ | ⟨-, rfl, -⟩ := exec_responds_or_starts i s
  · exact h
  · cases hclass
  · cases hclass

/-! ### The obligations -/

/-- Settles O29: the flag of both operations is that of R80, which is equality of the numbers. -/
theorem equalityResult : Obligations.EqualityResult :=
  ⟨decode_encode .eq, decode_encode .ne, fun _ u =>
    ⟨u.cmd.x.eqFlag u.cmd.y, exec_of_resultClass_bool rfl _, exec_of_resultClass_bool rfl _,
      u.cmd.x.eqFlag_iff_limbs u.cmd.y, u.cmd.x.eqFlag_iff u.cmd.y⟩⟩

/-- Settles O30: the four flags are composed of those of R80 and R82, and so are the relations of the numbers. -/
theorem orderResult : Obligations.OrderResult :=
  ⟨decode_encode .lt, decode_encode .gt, decode_encode .le, decode_encode .ge, fun _ u =>
    ⟨u.cmd.x.ltFlag u.cmd.y, u.cmd.x.eqFlag u.cmd.y,
      exec_of_resultClass_bool rfl _, exec_of_resultClass_bool rfl _,
      exec_of_resultClass_bool rfl _, exec_of_resultClass_bool rfl _,
      u.cmd.x.ltFlag_iff_limbs u.cmd.y, u.cmd.x.eqFlag_iff_limbs u.cmd.y,
      u.cmd.x.ltFlag_iff u.cmd.y, u.cmd.x.not_ltFlag_or_eqFlag_iff u.cmd.y,
      u.cmd.x.ltFlag_or_eqFlag_iff u.cmd.y, u.cmd.x.geFlag_iff u.cmd.y⟩⟩

/-- Settles O31: the test of R87 on both limbs is the divisor test of R107, and `ISNZ` delivers its negation. -/
theorem zeroTestResult : Obligations.ZeroTestResult := by
  refine ⟨decode_encode .isnz, decode_encode .isz, fun w u =>
    ⟨u.cmd.x.isZero, ?_, exec_of_resultClass_bool rfl _, ?_, u.cmd.x.isZero_iff⟩⟩ <;>
    rw [← DW.nonzero_eq_not_isZero]
  · exact exec_of_resultClass_bool rfl _
  · exact u.cmd.x.nonzero_iff_limbs

/-- Settles O32: the flags of O29 and O30 are the relations of the numbers, of which one is the case. -/
theorem comparisonsAreATotalOrder : Obligations.ComparisonsAreATotalOrder := by
  intro w u
  refine ⟨u.cmd.x.ltFlag u.cmd.y, u.cmd.x.eqFlag u.cmd.y, !(u.cmd.x.ltFlag u.cmd.y || u.cmd.x.eqFlag u.cmd.y),
    u.cmd.x.ltFlag u.cmd.y || u.cmd.x.eqFlag u.cmd.y, u.cmd.x.geFlag u.cmd.y, !u.cmd.x.eqFlag u.cmd.y, ?_,
    u.cmd.x.ltFlag_iff u.cmd.y, u.cmd.x.eqFlag_iff u.cmd.y, u.cmd.x.not_ltFlag_or_eqFlag_iff u.cmd.y,
    u.cmd.x.order_flags_trichotomy u.cmd.y, (Bool.not_not _).symm, rfl, rfl⟩
  simp only [List.forall_mem_cons, List.not_mem_nil, false_implies, implies_true, and_true]
  refine ⟨?_, ?_, ?_, ?_, ?_, ?_⟩ <;> exact exec_of_resultClass_bool rfl _

end Machine
end Sys2Proof
end

section
/-! The adder and the subtractor (spec/43_additive.md R90, R91): the carry and the borrow, which the model finds by a
comparison, as what they stand for, and the wrapping law of the sum. -/

namespace Sys2Proof

variable {W : Nat}

/-! ### The carry (R90) -/

/-- R90: the comparison test is exact. A sum that wraps has lost `2^W`, more than the other summand makes up for. -/
theorem carryOf_addW_left_iff (a b : Limb W) : carryOf (addW a b) a = true ↔ 2 ^ W ≤ a.toNat + b.toNat := by
  rw [carryOf_iff]
  by_cases hwrap : a.toNat + b.toNat < 2 ^ W
  · have hsum : (addW a b).toNat = a.toNat + b.toNat := BitVec.toNat_add_of_lt hwrap
    omega
  · have hsum : (addW a b).toNat = a.toNat + b.toNat - 2 ^ W := by
      rw [toNat_addW, Nat.mod_eq_sub_mod (by omega), Nat.mod_eq_of_lt (by omega)]
    omega

/-- R90: it makes no difference which summand the sum is compared with. -/
theorem carryOf_addW_right_iff (a b : Limb W) : carryOf (addW a b) b = true ↔ 2 ^ W ≤ a.toNat + b.toNat := by
  rw [addW, BitVec.add_comm, Nat.add_comm]
  exact carryOf_addW_left_iff b a

/-- The carry of the low stage as a number: how often `2^W` goes into the sum. -/
theorem toNat_ofFlag_carryOf_addW (a b : Limb W) :
    (ofFlag (W := W) (carryOf (addW a b) a)).toNat = (a.toNat + b.toNat) / 2 ^ W := by
  by_cases hwrap : 2 ^ W ≤ a.toNat + b.toNat
  · have hone : (1#W).toNat = 1 := by
      rw [BitVec.toNat_ofNat, Nat.mod_eq_of_lt (by omega)]
    have hquot : (a.toNat + b.toNat) / 2 ^ W = 1 := Nat.div_eq_of_lt_le (by omega) (by omega)
    rw [(carryOf_addW_left_iff a b).2 hwrap, ofFlag, if_pos rfl, hone, hquot]
  · have hcarry : ¬carryOf (addW a b) a = true := mt (carryOf_addW_left_iff a b).1 hwrap
    rw [ofFlag, if_neg hcarry, Nat.div_eq_of_lt (not_le.1 hwrap), BitVec.toNat_zero]

/-- R90 adds the numbers, modulo `2^(2W)`: the low limb is the remainder of the sum by `2^W`, the high limb its quotient. -/
theorem DW.val_add (x y : DW W) : (x.add y).val = (x.val + y.val) % 2 ^ (2 * W) := by
  have hsum : x.val + y.val = x.low.toNat + y.low.toNat + 2 ^ W * (x.high.toNat + y.high.toNat) := by
    rw [DW.val_def, DW.val_def]
    ring
  have hlow : (x.add y).low.toNat = (x.val + y.val) % 2 ^ W := by
    rw [DW.add, toNat_addW, hsum, Nat.add_mul_mod_self_left]
  have hhigh : (x.add y).high.toNat = (x.val + y.val) / 2 ^ W % 2 ^ W := by
    rw [DW.add, toNat_addW, toNat_addW, toNat_ofFlag_carryOf_addW, Nat.mod_add_mod, hsum,
      Nat.add_mul_div_left _ _ (Nat.two_pow_pos W), Nat.add_comm]
  rw [DW.val_def, hlow, hhigh, Nat.two_mul, Nat.pow_add, Nat.mod_mul, Nat.mul_comm, Nat.add_comm]

/-! ### The borrow (R91) -/

/-- R91: the comparison test is exact. A difference that wraps has gained `2^W`, more than the subtrahend takes away. -/
theorem borrowOf_subW_iff (a b : Limb W) : borrowOf (subW a b) a = true ↔ a.toNat < b.toNat := by
  rw [borrowOf_iff]
  by_cases hle : b.toNat ≤ a.toNat
  · have hdiff : (subW a b).toNat = a.toNat - b.toNat := BitVec.toNat_sub_of_le hle
    omega
  · have hdiff : (subW a b).toNat = 2 ^ W - (b.toNat - a.toNat) := BitVec.toNat_sub_of_lt (not_le.1 hle)
    omega

namespace Machine

/-! ### The obligations -/

/-- Settles O33: `ADD` is of class DW, its carry test is exact on either summand, and its law is that of the number. -/
theorem addResult : Obligations.AddResult :=
  ⟨decode_encode .add, fun _ u =>
    ⟨carryOf (addW u.cmd.aLow u.cmd.bLow) u.cmd.aLow, exec_of_respondInstr_ofDW u rfl rfl, rfl,
      carryOf_iff _ _, carryOf_addW_left_iff _ _,
      (carryOf_addW_left_iff _ _).trans ((carryOf_addW_right_iff _ _).symm.trans (carryOf_iff _ _)),
      rfl, u.cmd.x.val_add u.cmd.y⟩⟩

/-- Settles O34: `SUB` is of class DW, its borrow test is exact, and its law is that of the number. -/
theorem subResult : Obligations.SubResult :=
  ⟨decode_encode .sub, fun _ u =>
    ⟨borrowOf (subW u.cmd.aLow u.cmd.bLow) u.cmd.aLow, exec_of_respondInstr_ofDW u rfl rfl, rfl,
      borrowOf_iff _ _, borrowOf_subW_iff _ _, rfl, u.cmd.x.natCast_val_sub u.cmd.y⟩⟩

end Machine
end Sys2Proof
end

section
/-! The bit-length counter (spec/44_bitlength.md R95, R96): the bit length is the least number of binary digits that hold
the limb, or the value. -/

namespace Sys2Proof

variable {W : Nat}

/-! ### The bit length of a limb (R95) -/

/-- A shift brings the limb to zero exactly when it is at least as long as the limb. -/
theorem ushiftRight_eq_zero_iff_limbBitlen_le (v : Limb W) (k : Nat) : v >>> k = 0#W ↔ limbBitlen v ≤ k := by
  have hshift : (v >>> k).toNat = v.toNat / 2 ^ k := toNat_shrW v k
  rw [limbBitlen_eq_size, Nat.size_le, BitVec.toNat_eq, hshift, BitVec.toNat_zero,
    Nat.div_eq_zero_iff_lt (Nat.two_pow_pos k)]

theorem limbBitlen_eq_log2_add_one {v : Limb W} (hv : v ≠ 0#W) : limbBitlen v = Nat.log2 v.toNat + 1 := by
  have hv' : v.toNat ≠ 0 := fun h => hv (BitVec.eq_of_toNat_eq h)
  rw [limbBitlen_eq_size]
  exact le_antisymm (Nat.size_le.2 Nat.lt_log2_self) (Nat.lt_size.2 (Nat.log2_self_le hv'))

/-! ### The bit length of a value (R96) -/

/-- No fewer digits hold the value. The upper bound is `DW.val_lt_two_pow_bitLength`. -/
theorem DW.two_pow_le_val_of_lt_bitLength {x : DW W} {n : Nat} (hn : n < x.bitLength) : 2 ^ n ≤ x.val := by
  rw [DW.bitLength] at hn
  split at hn
  case isTrue hhigh =>
    have hlen : limbBitlen x.high ≠ 0 := mt limbBitlen_eq_zero.1 hhigh
    have hdigit : 2 ^ (n - W) ≤ x.high.toNat := by
      rw [← Nat.lt_size, ← limbBitlen_eq_size]
      omega
    calc 2 ^ n ≤ 2 ^ (n - W + W) := Nat.pow_le_pow_right (by omega) (by omega)
      _ = 2 ^ (n - W) * 2 ^ W := Nat.pow_add ..
      _ ≤ x.high.toNat * 2 ^ W := Nat.mul_le_mul_right _ hdigit
      _ ≤ x.val := Nat.le_add_right ..
  case isFalse =>
    rw [limbBitlen_eq_size, Nat.lt_size] at hn
    exact hn.trans (Nat.le_add_left ..)

theorem DW.bitLength_eq_zero_iff (x : DW W) : x.bitLength = 0 ↔ x.val = 0 := by
  constructor
  · intro hlen
    have hlt := x.val_lt_two_pow_bitLength
    rw [hlen] at hlt
    omega
  · intro hval
    by_contra hlen
    have hle := DW.two_pow_le_val_of_lt_bitLength (Nat.pos_of_ne_zero hlen)
    omega

namespace Machine

/-! ### The obligations -/

/-- Settles O35: a shift by `k` gives zero exactly when `limb_bitlen(v)` is at most `k`. -/
theorem limbBitLength : Obligations.LimbBitLength := fun _ v =>
  ⟨(ushiftRight_eq_zero_iff_limbBitlen_le v _).2 le_rfl,
    fun k hk hzero => absurd ((ushiftRight_eq_zero_iff_limbBitlen_le v k).1 hzero) (by omega),
    limbBitlen_le v, limbBitlen_eq_log2_add_one⟩

/-- Settles O36: a limb holds the bit length delivered, which bounds the value from both sides. -/
theorem bitlenResult : Obligations.BitlenResult := by
  refine ⟨decode_encode .bitlen, fun w u hview => ⟨u.cmd.x.bitLength, ⟨BitVec.ofNat _ u.cmd.x.bitLength, 0⟩,
    exec_wholeCommand .bitlen ⟨w, u⟩ hview, ?_, rfl, u.cmd.x.bitLength_le, rfl, u.cmd.x.bitLength_eq_zero_iff.2,
    fun hval => ⟨?_, u.cmd.x.val_lt_two_pow_bitLength⟩⟩⟩
  · exact Nat.mod_eq_of_lt (bitLength_lt_two_pow u.cmd.x)
  · have hlen : u.cmd.x.bitLength ≠ 0 := mt u.cmd.x.bitLength_eq_zero_iff.1 hval
    exact DW.two_pow_le_val_of_lt_bitLength (by omega)

end Machine
end Sys2Proof
end

section
/-! The schoolbook multiplier (spec/45_multiply.md R100 to R102): no half-limb product wraps, each wrapping sum keeps what it
lost in its carry, and with both carries at their weights the two limbs are those of the product. -/

namespace Sys2Proof

variable {W : Nat}

theorem Width.bits_mod_two (w : Width) : w.bits % 2 = 0 := by
  cases w <;> rfl

/-! ### Half-limb products (R102) -/

/-- Two values of half a limb multiply to at most `(2^halfW - 1)^2`. -/
theorem mul_le_of_lt_two_pow_halfW (hW : W % 2 = 0) {a b : Nat} (ha : a < 2 ^ halfW W) (hb : b < 2 ^ halfW W) :
    a * b ≤ 2 ^ W - 2 ^ (halfW W + 1) + 1 := by
  obtain ⟨m, hm⟩ : ∃ m, 2 ^ halfW W = m + 1 := Nat.exists_eq_add_one.2 (Nat.two_pow_pos _)
  have hsquare : 2 ^ W = m * m + 2 * m + 1 := by
    rw [← two_pow_halfW_mul_self hW, hm]
    ring
  have hle : a * b ≤ m * m := Nat.mul_le_mul (by omega) (by omega)
  rw [Nat.pow_succ, hm, hsquare]
  omega

theorem toNat_mulW_of_lt_two_pow_halfW (hW : W % 2 = 0) {a b : Limb W} (ha : a.toNat < 2 ^ halfW W)
    (hb : b.toNat < 2 ^ halfW W) : (mulW a b).toNat = a.toNat * b.toNat := by
  rw [toNat_mulW, Nat.mod_eq_of_lt]
  calc a.toNat * b.toNat < 2 ^ halfW W * 2 ^ halfW W := Nat.mul_lt_mul'' ha hb
    _ = 2 ^ W := two_pow_halfW_mul_self hW

theorem toNat_mulW_le_of_lt_two_pow_halfW (hW : W % 2 = 0) {a b : Limb W} (ha : a.toNat < 2 ^ halfW W)
    (hb : b.toNat < 2 ^ halfW W) : (mulW a b).toNat ≤ 2 ^ W - 2 ^ (halfW W + 1) + 1 :=
  (toNat_mulW_of_lt_two_pow_halfW hW ha hb).trans_le (mul_le_of_lt_two_pow_halfW hW ha hb)

/-! ### What the two sums lose (R100) -/

/-- A wrapping sum and its carry at weight `2^W` make up the true sum. -/
theorem toNat_addW_add_carry (a b : Limb W) :
    (addW a b).toNat + 2 ^ W * (ofFlag (W := W) (carryOf (addW a b) a)).toNat = a.toNat + b.toNat := by
  rw [toNat_ofFlag_carryOf_addW, toNat_addW, Nat.mod_add_div]

/-- A limb moved up by half a limb: what `shl_W` drops is what `shr_W` keeps, at weight `2^W`. -/
theorem toNat_shlW_halfW_add (hW : W % 2 = 0) (v : Limb W) :
    (shlW v (halfW W)).toNat + 2 ^ W * (shrW v (halfW W)).toNat = v.toNat * 2 ^ halfW W := by
  have hquot : v.toNat * 2 ^ halfW W / 2 ^ W = v.toNat / 2 ^ halfW W := by
    rw [← two_pow_halfW_mul_self hW, Nat.mul_div_mul_right _ _ (Nat.two_pow_pos _)]
  rw [toNat_shlW, toNat_shrW, ← hquot, Nat.mod_add_div]

theorem shlW_ofFlag (c : Bool) (k : Nat) : shlW (ofFlag c) k = if c then 1#W <<< k else 0#W := by
  cases c
  · exact BitVec.zero_shiftLeft k
  · rfl

namespace Machine

/-! ### The intermediate values of the multiplier -/

section
variable (hW : W % 2 = 0) (x y : DW W)
include hW

theorem toNat_p00_mulParts : (mulParts x y).p00.toNat = (loHalf x.low).toNat * (loHalf y.low).toNat :=
  toNat_mulW_of_lt_two_pow_halfW hW (toNat_loHalf_lt _) (toNat_loHalf_lt _)

theorem toNat_p10_mulParts : (mulParts x y).p10.toNat = (hiHalf x.low).toNat * (loHalf y.low).toNat :=
  toNat_mulW_of_lt_two_pow_halfW hW (toNat_hiHalf_lt hW _) (toNat_loHalf_lt _)

theorem toNat_p01_mulParts : (mulParts x y).p01.toNat = (loHalf x.low).toNat * (hiHalf y.low).toNat :=
  toNat_mulW_of_lt_two_pow_halfW hW (toNat_loHalf_lt _) (toNat_hiHalf_lt hW _)

theorem toNat_p11_mulParts : (mulParts x y).p11.toNat = (hiHalf x.low).toNat * (hiHalf y.low).toNat :=
  toNat_mulW_of_lt_two_pow_halfW hW (toNat_hiHalf_lt hW _) (toNat_hiHalf_lt hW _)

end

/-- R100 step 3 tests `mid` against its second summand; the first gives the same carry. -/
theorem carryMid_mulParts (x y : DW W) : (mulParts x y).carryMid = carryOf (mulParts x y).mid (mulParts x y).p10 :=
  Bool.eq_iff_iff.2 ((carryOf_addW_right_iff _ _).trans (carryOf_addW_left_iff _ _).symm)

theorem mid_mulParts_add_carry (x y : DW W) :
    (mulParts x y).mid.toNat + 2 ^ W * (ofFlag (W := W) (mulParts x y).carryMid).toNat =
      (mulParts x y).p10.toNat + (mulParts x y).p01.toNat := by
  rw [carryMid_mulParts]
  exact toNat_addW_add_carry (mulParts x y).p10 (mulParts x y).p01

theorem lower_mulParts_add_carry (x y : DW W) :
    (mulParts x y).lower.toNat + 2 ^ W * (ofFlag (W := W) (mulParts x y).carryLow).toNat =
      (mulParts x y).p00.toNat + (shlW (mulParts x y).mid (halfW W)).toNat :=
  toNat_addW_add_carry (mulParts x y).p00 _

/-! ### The high limb (R100 step 5) -/

/-- What the decomposition of the low limbs adds into the high limb, as a number: the carry of `mid` has weight `2^halfW`
there, the carry of the low limb weight 1. -/
def intoHigh (m : MulParts W) : Nat :=
  m.p11.toNat + (shrW m.mid (halfW W)).toNat + (ofFlag (W := W) m.carryMid).toNat * 2 ^ halfW W +
    (ofFlag (W := W) m.carryLow).toNat

/-- The additions of step 5 wrap, so together they reduce the sum once. -/
theorem toNat_mulUpper (x y : DW W) (m : MulParts W) :
    (mulUpper x y m).toNat = (x.high.toNat * y.low.toNat + x.low.toNat * y.high.toNat + intoHigh m) % 2 ^ W := by
  simp only [mulUpper, intoHigh, toNat_addW, toNat_mulW, toNat_shlW, Nat.mod_add_mod, Nat.add_mod_mod, Nat.add_assoc]

theorem mulUpper_eq (x y : DW W) (m : MulParts W) :
    mulUpper x y m = x.high * y.low + x.low * y.high + m.p11 + (m.mid >>> (W / 2)) +
      (if m.carryMid then 1#W <<< (W / 2) else 0#W) + (if m.carryLow then 1#W else 0#W) := by
  rw [mulUpper, shlW_ofFlag]
  rfl

/-- R101: the product of the low limbs is `lower` and, at weight `2^W`, what the decomposition adds into the high limb. -/
theorem low_mul_low_eq (hW : W % 2 = 0) (x y : DW W) :
    x.low.toNat * y.low.toNat = (mulParts x y).lower.toNat + 2 ^ W * intoHigh (mulParts x y) := by
  have hmid := mid_mulParts_add_carry x y
  have hshift := toNat_shlW_halfW_add hW (mulParts x y).mid
  have hlower := lower_mulParts_add_carry x y
  have hsplit : x.low.toNat * y.low.toNat = (mulParts x y).p00.toNat +
      ((mulParts x y).p10.toNat + (mulParts x y).p01.toNat) * 2 ^ halfW W + (mulParts x y).p11.toNat * 2 ^ W := by
    rw [toNat_p00_mulParts hW, toNat_p10_mulParts hW, toNat_p01_mulParts hW, toNat_p11_mulParts hW,
      toNat_eq_halves x.low, toNat_eq_halves y.low, ← two_pow_halfW_mul_self hW]
    ring
  rw [intoHigh]
  linear_combination hsplit - 2 ^ halfW W * hmid - hshift - hlower

end Machine

/-! ### The product law (R101) -/

/-- A low limb that is the number's remainder by `2^W`, and a high limb that is its quotient, the latter modulo `2^W`. -/
theorem DW.val_eq_mod_of_limbs {r : DW W} {n k : Nat} (hn : n = r.low.toNat + 2 ^ W * k)
    (hhigh : r.high.toNat = k % 2 ^ W) : r.val = n % 2 ^ (2 * W) := by
  have hmod : r.high.toNat * 2 ^ W ≡ k * 2 ^ W [MOD 2 ^ W * 2 ^ W] :=
    Nat.ModEq.mul_right' _ (hhigh ▸ Nat.mod_modEq k _)
  rw [← Nat.mod_eq_of_lt r.val_lt, DW.val_def, hn, Nat.two_mul, Nat.pow_add, Nat.add_comm r.low.toNat, Nat.mul_comm _ k]
  exact hmod.add_right _

/-- R101: `x.high * y.high` has weight `2^(2W)`, and the multiplier forms every other term. -/
theorem DW.val_mul (hW : W % 2 = 0) (x y : DW W) : (x.mul y).val = (x.val * y.val) % 2 ^ (2 * W) := by
  have hlow : x.low.toNat * y.low.toNat = (x.mul y).low.toNat + 2 ^ W * Machine.intoHigh (Machine.mulParts x y) :=
    Machine.low_mul_low_eq hW x y
  refine DW.val_eq_mod_of_limbs (k := x.high.toNat * y.low.toNat + x.low.toNat * y.high.toNat +
    Machine.intoHigh (Machine.mulParts x y) + 2 ^ W * (x.high.toNat * y.high.toNat)) ?_ ?_
  · rw [DW.val_def, DW.val_def]
    linear_combination hlow
  · rw [Nat.add_mul_mod_self_left]
    exact Machine.toNat_mulUpper x y _

namespace Machine

/-! ### The obligations -/

/-- Settles O38: both factors of a half-limb product lie below `2^halfW`. -/
theorem halfLimbProductsNeverWrap : Obligations.HalfLimbProductsNeverWrap := by
  intro w x y
  have hW := w.bits_mod_two
  have h00 := toNat_p00_mulParts hW x y
  have h10 := toNat_p10_mulParts hW x y
  have h01 := toNat_p01_mulParts hW x y
  have h11 := toNat_p11_mulParts hW x y
  rw [toNat_loHalf, toNat_loHalf] at h00
  rw [toNat_hiHalf, toNat_loHalf] at h10
  rw [toNat_loHalf, toNat_hiHalf] at h01
  rw [toNat_hiHalf, toNat_hiHalf] at h11
  refine ⟨h00, h10, h01, h11, ?_⟩
  simp only [List.forall_mem_cons, List.not_mem_nil, false_implies, implies_true, and_true]
  exact ⟨toNat_mulW_le_of_lt_two_pow_halfW hW (toNat_loHalf_lt _) (toNat_loHalf_lt _),
    toNat_mulW_le_of_lt_two_pow_halfW hW (toNat_hiHalf_lt hW _) (toNat_loHalf_lt _),
    toNat_mulW_le_of_lt_two_pow_halfW hW (toNat_loHalf_lt _) (toNat_hiHalf_lt hW _),
    toNat_mulW_le_of_lt_two_pow_halfW hW (toNat_hiHalf_lt hW _) (toNat_hiHalf_lt hW _)⟩

/-- Settles O39: the intermediate values are those of `mulParts`, and both carry tests are exact. -/
theorem mulFollowsTheDecomposition : Obligations.MulFollowsTheDecomposition := by
  refine ⟨decode_encode .mul, fun w u => ?_⟩
  obtain ⟨h00, h10, h01, h11, -⟩ := halfLimbProductsNeverWrap w u.cmd.x u.cmd.y
  have hexec := exec_of_respondInstr_ofDW (i := .mul) u rfl rfl
  rw [DW.mul, mulUpper_eq] at hexec
  exact ⟨_, _, _, _, _, _, _, _, h00, h10, h01, h11, rfl, carryOf_iff _ _, carryOf_addW_right_iff _ _,
    rfl, carryOf_iff _ _, carryOf_addW_left_iff _ _, hexec⟩

/-- Settles O40: either width is even, so the product law holds of it. -/
theorem mulIsTheProduct : Obligations.MulIsTheProduct := fun w u =>
  ⟨u.cmd.x.mul u.cmd.y, exec_of_respondInstr_ofDW u rfl rfl, DW.val_mul w.bits_mod_two _ _⟩

end Machine
end Sys2Proof
end

section
/-! The divider (spec/46_divide.md R107 to R116): the loop invariant of R109, which makes the invariant of the machine one
that every step keeps; DIV_INIT, DIV_ITER and DIV_DONE with the failure; and the two views of a `DIVMOD`. -/

namespace Sys2Proof

theorem DW.isZero_eq_false_iff {W : Nat} (y : DW W) : y.isZero = false ↔ y.val ≠ 0 := by
  rw [← Bool.not_eq_true, DW.isZero_iff]

namespace Machine

variable {W : Nat} {u v : Dwu W}

/-! ### The loop invariant (R109, R116) -/

/-- One iteration consumes one more bit of the dividend and keeps the division law. -/
theorem divBody_consumes_bit {x y q r : DW W} {i : Nat} (hlaw : x.val / 2 ^ (i + 1) = q.val * y.val + r.val)
    (hrem : r.val < y.val) :
    x.val / 2 ^ i = (divBody y q r (x.bit i)).1.val * y.val + (divBody y q r (x.bit i)).2.val ∧
      (divBody y q r (x.bit i)).2.val < y.val := by
  have hbits := div_two_pow_eq_two_mul_add_testBit x.val i
  have hfit : x.val / 2 ^ i < 2 ^ (2 * W) := (Nat.div_le_self _ _).trans_lt x.val_lt
  rw [hbits] at hfit ⊢
  rw [DW.bit_eq_testBit]
  exact divBody_law hlaw hrem hfit

/-- Of the unit the loop invariant reads the view and the command port alone. -/
theorem DivInv.congr {d : DivRegs W} (h : DivInv u d) (hview : v.granularity = u.granularity) (hcmd : v.cmd = u.cmd) :
    DivInv v d where
  serial := hview.trans h.serial
  command := hcmd ▸ h.command
  dividendIsX := hcmd ▸ h.dividendIsX
  divisorIsY := hcmd ▸ h.divisorIsY
  divisorNonzero := h.divisorNonzero
  indexBound := h.indexBound
  consumed := h.consumed
  remainderBelow := h.remainderBelow

/-- DIV_INIT has consumed no bit of the dividend. -/
theorem divInv_divInit (hserial : u.granularity = .bitSerial) (hcommand : decode u.cmd.cw = some .divmod)
    (hy : u.cmd.y.val ≠ 0) : DivInv u (divInit u.cmd.x u.cmd.y) := by
  have hpos : 0 < u.cmd.y.val := Nat.pos_of_ne_zero hy
  obtain ⟨hlaw, hrem⟩ := divAfter_law (x := u.cmd.x) hpos (Nat.zero_le _)
  exact ⟨hserial, hcommand, rfl, rfl, hpos, le_rfl, hlaw, hrem⟩

/-- DIV_ITER keeps the loop invariant. -/
theorem DivInv.iter {d : DivRegs W} (h : DivInv u d) (hi : d.i ≠ 0) : DivInv u (divIter d) := by
  obtain ⟨hserial, hcommand, hx, hy, hnonzero, hindex, hlaw, hrem⟩ := h
  rw [← Nat.sub_one_add_one hi] at hlaw
  obtain ⟨hlaw', hrem'⟩ := divBody_consumes_bit hlaw hrem
  exact ⟨hserial, hcommand, hx, hy, hnonzero, (Nat.sub_le _ _).trans hindex, hlaw', hrem'⟩

/-- While a bit of the dividend is still to come, neither quotient nor remainder uses its top bit (R116): both are at most
the bits consumed, of which there are fewer than `2W`. -/
theorem DivInv.val_lt_half {d : DivRegs W} (h : DivInv u d) (hi : d.i ≠ 0) :
    d.quotient.val < 2 ^ (2 * W - 1) ∧ d.remainder.val < 2 ^ (2 * W - 1) := by
  have hconsumed : d.dividend.val / 2 ^ d.i < 2 ^ (2 * W - 1) := by
    apply Nat.div_lt_of_lt_mul
    rw [← Nat.pow_add]
    exact d.dividend.val_lt.trans_le (Nat.pow_le_pow_right Nat.two_pos (by omega))
  have hq : d.quotient.val ≤ d.quotient.val * d.divisor.val := Nat.le_mul_of_pos_right _ h.divisorNonzero
  rw [h.consumed] at hconsumed
  omega

/-! ### The count invariant (R95, R96) -/

/-- Of the unit the count invariant reads the view and the command port alone. -/
theorem CountInv.congr {r : CountRegs W} (h : CountInv u r) (hview : v.granularity = u.granularity)
    (hcmd : v.cmd = u.cmd) : CountInv v r where
  serial := hview.trans h.serial
  command := hcmd ▸ h.command
  countBound := h.countBound
  length := hcmd ▸ h.length

theorem countInv_countInit (hserial : u.granularity = .bitSerial) (hcommand : decode u.cmd.cw = some .bitlen) :
    CountInv u (countInit u.cmd.x) :=
  ⟨hserial, hcommand, Nat.zero_le _, countResult_limbBitlen_countInit _ _⟩

/-- The shifts made and those to come are as many as the limb chosen at the start has bits. -/
theorem CountInv.count_add_limbBitlen_le {r : CountRegs W} (h : CountInv u r) : r.count + limbBitlen r.limb ≤ W := by
  have hlength := h.length
  have hlow := limbBitlen_le u.cmd.x.low
  have hhigh := limbBitlen_le u.cmd.x.high
  simp only [countResult, DW.bitLength] at hlength
  split at hlength <;> omega

/-- A shift moves one from the shifts to come to the shifts made. -/
theorem CountInv.iter {r : CountRegs W} (h : CountInv u r) (hr : r.limb ≠ 0#W) : CountInv u (countIter r) := by
  have hbound := h.count_add_limbBitlen_le
  obtain ⟨hserial, hcommand, -, hlength⟩ := h
  have hshift : limbBitlen (countIter r).limb + 1 = limbBitlen r.limb := limbBitlen_shrW_one_add_one hr
  have hcount : (countIter r).count = r.count + 1 := rfl
  have hsum : (countIter r).count + limbBitlen (countIter r).limb = r.count + limbBitlen r.limb := by
    omega
  refine ⟨hserial, hcommand, by omega, ?_⟩
  rw [hsum]
  exact hlength

/-! ### The invariant of the machine -/

theorem Dwu.inv_iff_of_counting {r : CountRegs W} (hwork : u.work = .counting r) : u.Inv ↔ CountInv u r := by
  simp [Dwu.Inv, hwork]

theorem Dwu.inv_iff_of_dividing {d : DivRegs W} (hwork : u.work = .dividing d) : u.Inv ↔ DivInv u d := by
  simp [Dwu.Inv, hwork]

/-- The host's list is no part of the invariant. -/
theorem Dwu.Inv.withHost (h : u.Inv) (rest : List (HostEvent W)) : (u.withHost rest).Inv := by
  cases hwork : u.work with
  | idle => exact Dwu.inv_of_idle hwork
  | counting r =>
    have hcount : CountInv u r := (Dwu.inv_iff_of_counting hwork).1 h
    exact (Dwu.inv_iff_of_counting (u := u.withHost rest) hwork).2 (hcount.congr rfl rfl)
  | dividing d =>
    have hdiv : DivInv u d := (Dwu.inv_iff_of_dividing hwork).1 h
    exact (Dwu.inv_iff_of_dividing (u := u.withHost rest) hwork).2 (hdiv.congr rfl rfl)

theorem CountInv.inv_withWork {r : CountRegs W} (h : CountInv u r) : (u.withWork (.counting r)).Inv :=
  (Dwu.inv_iff_of_counting rfl).2 (h.congr rfl rfl)

theorem DivInv.inv_withWork {d : DivRegs W} (h : DivInv u d) : (u.withWork (.dividing d)).Inv :=
  (Dwu.inv_iff_of_dividing rfl).2 (h.congr rfl rfl)

/-- An internal step of the command in flight keeps the invariant. -/
theorem Dwu.Inv.advance (h : u.Inv) : u.advance.Inv := by
  obtain ⟨-, hu⟩ | ⟨r, -, -, hu⟩ | ⟨r, hwork, hr, hu⟩ | ⟨d, -, -, hu⟩ | ⟨d, hwork, hd, hu⟩ :=
    u.advance_cases <;> rw [hu]
  · exact h
  · exact Dwu.inv_of_idle rfl
  · exact (((Dwu.inv_iff_of_counting hwork).1 h).iter hr).inv_withWork
  · exact Dwu.inv_of_idle rfl
  · exact (((Dwu.inv_iff_of_dividing hwork).1 h).iter hd).inv_withWork

/-- The meaning of the operation on the port of an idle unit leads to a state of the invariant. -/
theorem inv_of_exec {i : Instr} {s t : State} (hidle : s.unit.work = .idle) (hdecode : decode s.unit.cmd.cw = some i)
    (ht : exec i s = .next t) : t.Inv := by
  obtain h | ⟨hview, rfl, h⟩ | ⟨hview, rfl, hy, h⟩ := exec_responds_or_starts i s <;> cases h.symm.trans ht
  · exact Dwu.inv_of_idle hidle
  · exact (countInv_countInit hview hdecode).inv_withWork
  · exact (divInv_divInit hview hdecode ((DW.isZero_eq_false_iff _).1 hy)).inv_withWork

/-- Settles O50, by what a step can do: an internal step, a reset, or the start of a command by an idle unit. -/
theorem everyStepKeepsTheInvariant : Obligations.EveryStepKeepsTheInvariant := by
  intro s t (hs : s.unit.Inv) ht
  obtain ⟨-, h⟩ | ⟨rest, -, h⟩ | ⟨rest, -, h⟩ | ⟨c, rest, -, -, h⟩ | ⟨c, rest, i, -, hidle, hdecode, h⟩ |
    ⟨c, rest, -, hidle, -, h⟩ := step_cases s <;> rw [h] at ht
  case inr.inr.inr.inr.inl => exact inv_of_exec (s := s.accept c rest) hidle hdecode ht
  all_goals cases ht
  · exact hs.advance
  · exact (hs.withHost rest).advance
  · exact Dwu.inv_of_idle rfl
  · exact hs.advance
  · exact Dwu.inv_of_idle hidle

/-- Settles O47: in the states of the invariant the top bit that a shift would lose is not used. -/
theorem dividerShiftsLoseNoBit : Obligations.DividerShiftsLoseNoBit := by
  intro w u d hinv hwork hi
  have hd : DivInv u d := (Dwu.inv_iff_of_dividing hwork).1 hinv
  obtain ⟨hq, hr⟩ := hd.val_lt_half (by omega)
  have hwidth : 0 < 2 * w.bits := hi.trans (hd.indexBound.trans d.dividend.bitLength_le)
  have htop : 2 ^ (2 * w.bits - 1) * 2 = 2 ^ (2 * w.bits) := Nat.two_pow_pred_mul_two hwidth
  refine ⟨hr, DW.val_shl1 (by omega), DW.val_shl1 (by omega), fun b => val_shiftedRemainder ?_⟩
  have hb := Bool.toNat_le b
  omega

/-! ### Bit selection and the failure (R108, R114) -/

/-- Settles O41: the bit of the number lies in the limb that `bit` takes it from. -/
theorem bitSelection : Obligations.BitSelection := by
  intro W x k _
  have hbit : x.bit k = if k < W then x.low.getLsbD k else x.high.getLsbD (k - W) :=
    (x.bit_eq_testBit k).trans (x.testBit_val k)
  exact ⟨x.bit_eq_testBit k, fun hk => hbit.trans (if_pos hk), fun hk => hbit.trans (if_neg (Nat.not_lt.2 hk))⟩

section
variable {w : Width} {u : Dwu w.bits}

/-- A zero divisor ends the command at once, in either view. -/
theorem execDivmod_of_val_y_eq_zero (hy : u.cmd.y.val = 0) :
    exec .divmod ⟨w, u⟩ = .next ⟨w, u.raise .divByZero⟩ :=
  if_pos (u.cmd.y.isZero_iff.2 hy)

/-- With a divisor that is not zero the whole command delivers the pair that the loop reaches. -/
theorem execDivmod_wholeCommand (hview : u.granularity = .wholeCommand) (hy : u.cmd.y.val ≠ 0) :
    exec .divmod ⟨w, u⟩ =
      .next ⟨w, u.deliver (.ofPair (divLoop u.cmd.x u.cmd.y u.cmd.x.bitLength (DW.zero, DW.zero)).1
        (divLoop u.cmd.x u.cmd.y u.cmd.x.bitLength (DW.zero, DW.zero)).2)⟩ := by
  rw [← respondDivmod_of_isZero_eq_false (u.cmd.y.isZero_eq_false_iff.2 hy)]
  exact exec_wholeCommand .divmod ⟨w, u⟩ hview

/-- With a divisor that is not zero, `DIVMOD` delivers a success in the whole-command view and nothing in the bit-serial. -/
theorem execDivmod_ne_raise (hy : u.cmd.y.val ≠ 0) :
    exec .divmod ⟨w, u⟩ ≠ .next ⟨w, u.raise .divByZero⟩ := by
  cases hview : u.granularity with
  | wholeCommand =>
    rw [execDivmod_wholeCommand hview hy]
    simp [Dwu.raise, Dwu.deliver, Response.ofPair]
  | bitSerial =>
    rw [execDivmod_bitSerial ⟨w, u⟩ hview (u.cmd.y.isZero_eq_false_iff.2 hy)]
    simp [State.withWork, Dwu.withWork, Dwu.raise, Dwu.deliver]

end

/-- Settles O42: `DIVMOD` raises the failure exactly for a zero divisor. -/
theorem divmodByZeroFails : Obligations.DivmodByZeroFails :=
  ⟨fun _ _ => ⟨fun hraise => by_contra fun hy => execDivmod_ne_raise hy hraise, execDivmod_of_val_y_eq_zero⟩,
    fun _ => rfl⟩

/-! ### The division law (R109) -/

/-- Settles O43: the loop invariant after `m` iterations, and after all of them the division law. -/
theorem divmodLaw : Obligations.DivmodLaw := by
  refine ⟨decode_encode .divmod, fun w u hview hy => ?_⟩
  have hpos : 0 < u.cmd.y.val := Nat.pos_of_ne_zero hy
  obtain ⟨hq, hr⟩ := val_divLoop (x := u.cmd.x) hpos
  refine ⟨_, _, execDivmod_wholeCommand hview hy, ?_, ?_, ?_, ?_,
    fun m hm => ⟨divLoop_divAfter _ _ m hm, divAfter_law hpos hm⟩⟩
  · rw [hq, hr, Nat.div_add_mod']
  · rw [hr]
    exact Nat.mod_lt _ hpos
  · rw [← hq, DW.ofNat_val]
  · rw [← hr, DW.ofNat_val]

/-! ### The internal steps (R111 to R113) -/

/-- Settles O44, by the divisor test, which DIV_INIT makes first. -/
theorem divInitStep : Obligations.DivInitStep := fun w u hserial =>
  ⟨execDivmod_of_val_y_eq_zero, fun hy => execDivmod_bitSerial ⟨w, u⟩ hserial (u.cmd.y.isZero_eq_false_iff.2 hy)⟩

section
variable {w : Width} {u : Dwu w.bits} {d : DivRegs w.bits}

theorem step_dividing_nonzero (hwork : u.work = .dividing d) (hd : d.i ≠ 0) (hwait : u.hostWaits = true) :
    step ⟨w, u⟩ = .next ⟨w, u.withWork (.dividing (divIter d))⟩ := by
  rw [step_busy u (by simp [hwork]) hwait, u.advance_dividing_nonzero hwork hd]

theorem step_dividing_zero (hwork : u.work = .dividing d) (hd : d.i = 0) (hwait : u.hostWaits = true) :
    step ⟨w, u⟩ = .next ⟨w, (u.withWork .idle).deliver (.ofPair d.quotient d.remainder)⟩ := by
  rw [step_busy u (by simp [hwork]) hwait, u.advance_dividing_zero hwork hd]

end

/-- The inserted bit concerns the low limb alone. -/
theorem shiftedRemainder_eq (r : DW W) (b : Bool) :
    shiftedRemainder r b = ⟨if b then (r.shl 1).low ||| 1 else (r.shl 1).low, (r.shl 1).high⟩ := by
  cases b <;> rfl

theorem divBody_of_geFlag {y q r : DW W} {b : Bool} (hge : (shiftedRemainder r b).geFlag y = true) :
    divBody y q r b = (q.shl1.setBit0, (shiftedRemainder r b).sub y) :=
  if_pos hge

theorem divBody_of_not_geFlag {y q r : DW W} {b : Bool} (hlt : (shiftedRemainder r b).geFlag y = false) :
    divBody y q r b = (q.shl1, shiftedRemainder r b) :=
  if_neg (Bool.eq_false_iff.1 hlt)

/-- Settles O45, by the comparison of the shifted remainder with the divisor. -/
theorem divIterStep : Obligations.DivIterStep := by
  intro w u d hwork hi hwait
  have hstep := step_dividing_nonzero hwork (by omega) hwait
  refine ⟨_, shiftedRemainder_eq _ _, fun hge => ?_, fun hlt => ?_⟩
  · rw [hstep, divIter, divBody_of_geFlag hge]
    rfl
  · rw [hstep, divIter, divBody_of_not_geFlag hlt]
    rfl

/-- Settles O46: while the host waits the step of a busy unit is its internal step. -/
theorem divDoneStep : Obligations.DivDoneStep := fun _ _ _ hwork hi hwait =>
  step_dividing_zero hwork hi hwait

/-! ### The bit-serial view (R110, R113) -/

/-- The divider's registers after DIV_INIT and `k` iterations. -/
def divRegsAfter (x y : DW W) (k : Nat) : DivRegs W :=
  ⟨x, y, (divAfter x y k).1, (divAfter x y k).2, x.bitLength - k⟩

/-- While the host waits, `k` steps after DIV_INIT are `k` iterations, and nothing but the registers has changed. -/
theorem run_divInit {w : Width} (u : Dwu w.bits) (x y : DW w.bits) {k : Nat} (hk : k ≤ x.bitLength)
    (hwait : u.hostWaits = true) :
    run k ⟨w, u.withWork (.dividing (divInit x y))⟩ = .next ⟨w, u.withWork (.dividing (divRegsAfter x y k))⟩ := by
  induction k with
  | zero => rfl
  | succ k ih =>
    have hindex : (divRegsAfter x y k).i ≠ 0 := Nat.sub_ne_zero_of_lt hk
    have hstep : step ⟨w, u.withWork (.dividing (divRegsAfter x y k))⟩ =
        .next ⟨w, u.withWork (.dividing (divRegsAfter x y (k + 1)))⟩ :=
      step_dividing_nonzero (u := u.withWork _) rfl hindex hwait
    rw [run_add k 1 _ _ (ih (Nat.le_of_succ_le hk)), run_succ 0 _ _ hstep, run_zero]

/-- Settles O48: the registers along the run are those of `divAfter`, and the last step delivers what the loop leads to. -/
theorem serialDivmodDeliversTheLaw : Obligations.SerialDivmodDeliversTheLaw := by
  intro w u hserial hy hwait
  have hpos : 0 < u.cmd.y.val := Nat.pos_of_ne_zero hy
  obtain ⟨-, hinit⟩ := divInitStep w u hserial
  refine ⟨u.cmd.x.bitLength_le, _, hinit hy, fun k hk => ?_, ?_⟩
  · exact ⟨divRegsAfter u.cmd.x u.cmd.y k, run_divInit u _ _ hk hwait, rfl, divAfter_law hpos hk⟩
  · have hwhole := execDivmod_wholeCommand (u := { u with granularity := .wholeCommand }) rfl hy
    obtain ⟨hq, hr⟩ := val_divLoop (x := u.cmd.x) hpos
    exact ⟨_, _, run_dividing (u.withWork (.dividing (divInit u.cmd.x u.cmd.y))) rfl hwait, hwhole, hq, hr⟩

/-- Settles O49: the command's response, which both views deliver, is that of `respond`. -/
theorem serialRefinesWhole : Obligations.SerialRefinesWhole := by
  intro w u c rest hidle hhost hwait
  obtain ⟨hwhole, -⟩ := everyCommandGetsItsResponse w { u with granularity := .wholeCommand } c rest rfl hidle hhost
  obtain ⟨k, hk, hbound, hserial⟩ := exists_run_respond { u with granularity := .bitSerial } hidle hhost hwait
  exact ⟨((u.withHost rest).accept c).deliver (respond c), hwhole, k, hk, hbound, hserial⟩

end Machine
end Sys2Proof
end

section
/-! Reset, the two failures and the end of every command (spec/60_exceptions.md R128 to R136, spec/70_reset_and_hazards.md
R140 to R148). -/

namespace Sys2Proof

/-- The illegal words (R53, R54). -/
theorem decode_eq_none_iff (cw : BitVec 8) :
    decode cw = none ↔ rsvField cw ≠ 0b000#3 ∨ opField cw ∈ reservedOpcodes := by
  rw [← Option.not_isSome_iff_eq_none, isSome_decode_iff, not_and_or, not_not]

/-- `0x14` is the one word that selects `DIVMOD` (R52). -/
theorem decode_eq_some_divmod_iff (cw : BitVec 8) : decode cw = some .divmod ↔ cw = 0x14#8 :=
  decode_eq_some_iff.trans eq_comm

namespace Machine

variable {W : Nat}

/-! ### The two failures (R128, R130, R135) -/

/-- A command with an illegal word is answered at once, in either view. -/
theorem State.runCommand_of_decode_none {s : State} (h : decode s.unit.cmd.cw = none) :
    s.runCommand = .next (s.raise .illegalOp) := by
  simp [State.runCommand, h]

/-- Settles O6: an idle unit accepts the command, and its word selects no operation. -/
theorem illegalWordAnswersIllegalOp : Obligations.IllegalWordAnswersIllegalOp := by
  intro w u c rest hidle hhost hillegal
  have hnone : decode c.cw = none := (decode_eq_none_iff c.cw).2 hillegal
  exact ⟨(step_accepts u hidle hhost).trans (State.runCommand_of_decode_none hnone), rfl⟩

theorem status_respond_of_decode_none {c : Command W} (h : decode c.cw = none) : (respond c).status = .illegalOp := by
  rw [respond_of_decode_none h]
  rfl

theorem status_respond_of_divmod_zero {c : Command W} (hcw : c.cw = 0x14#8) (hy : c.y.val = 0) :
    (respond c).status = .divByZero := by
  rw [respond_of_decode_some ((decode_eq_some_divmod_iff c.cw).2 hcw)]
  exact congrArg Response.status (respondDivmod_of_isZero (c.y.isZero_iff.2 hy))

theorem status_respond_of_legal {c : Command W} {i : Instr} (hdecode : decode c.cw = some i)
    (hdiv : ¬(c.cw = 0x14#8 ∧ c.y.val = 0)) : (respond c).status = .ok := by
  rw [respond_of_decode_some hdecode]
  refine status_respondInstr fun ⟨hi, hy⟩ => hdiv ⟨?_, hy⟩
  rw [← decode_eq_some_divmod_iff, hdecode, hi]

/-- Settles O18: an illegal word, `0x14` with a zero divisor and any other command exclude each other, and each has its own
status. -/
theorem onlyTwoFailures : Obligations.OnlyTwoFailures := by
  intro w c
  cases hdecode : decode c.cw with
  | none =>
    have hcw : c.cw ≠ 0x14#8 := by simp [← decode_eq_some_divmod_iff, hdecode]
    simp [status_respond_of_decode_none hdecode, hcw]
  | some i =>
    by_cases hdiv : c.cw = 0x14#8 ∧ c.y.val = 0
    · simp [status_respond_of_divmod_zero hdiv.1 hdiv.2, hdiv]
    · simp [status_respond_of_legal hdecode hdiv, hdiv]

/-! ### Reset (R140, R141) -/

/-- Settles O55: a reset event is used up and aborts the command in flight. -/
theorem resetChangesNothingElse : Obligations.ResetChangesNothingElse := by
  intro w u rest hhost
  have hreset : step ⟨w, u⟩ = .next ⟨w, (u.withHost rest).abort⟩ := by
    simp [step, State.sequence, hhost, State.abort, State.withHost]
  exact hreset

/-- Settles O11: after the reset the unit is idle, so the next command is answered as any idle unit answers it. -/
theorem resetAbortsTheCommandInFlight : Obligations.ResetAbortsTheCommandInFlight := by
  intro w u rest hhost
  refine ⟨_, resetChangesNothingElse w u rest hhost, rfl, rfl, rfl, fun c next hrest => ?_⟩
  obtain ⟨k, -, -, hk⟩ := exists_run_respond { u with host := rest, work := .idle } rfl hrest
    (Dwu.hostWaits_of_commands _ rfl)
  exact ⟨k, hk⟩

/-! ### The steps still to come (R146 to R148) -/

@[simp] theorem Work.remaining_eq_zero_iff (k : Work W) : k.remaining = 0 ↔ k = .idle := by
  cases k <;> simp [Work.remaining]

/-- No step stops: there is no fault to raise, and nothing refuses. -/
theorem exists_step_eq_next (s : State) : ∃ t, step s = .next t := by
  cases hs : step s with
  | next t => exact ⟨t, rfl⟩
  | fault r => cases r
  | refused r => exact absurd hs (step_ne_refused s r)

/-- Unless the host signals reset, a busy unit takes its internal step, whatever the host's list is meanwhile. -/
theorem step_busy_of_no_reset {w : Width} (u : Dwu w.bits) (hbusy : u.work ≠ .idle)
    (hreset : ∀ rest, u.host ≠ .reset :: rest) : ∃ h, step ⟨w, u⟩ = .next ⟨w, (u.withHost h).advance⟩ := by
  match hhost : u.host with
  | [] => exact ⟨u.host, step_of_host_nil u hhost⟩
  | .pause :: rest => exact ⟨rest, step_of_host_pause u hhost⟩
  | .reset :: rest => exact absurd hhost (hreset rest)
  | .command c :: rest => exact ⟨u.host, step_busy u hbusy (by simp [Dwu.hostWaits, hhost])⟩

/-- An internal step of a command in flight takes one from the steps to come. -/
theorem Dwu.remaining_advance_add_one {u : Dwu W} (hbusy : u.work ≠ .idle) :
    u.advance.work.remaining + 1 = u.work.remaining := by
  obtain ⟨hidle, -⟩ | ⟨r, hwork, hr, hu⟩ | ⟨r, hwork, hr, hu⟩ | ⟨d, hwork, hd, hu⟩ | ⟨d, hwork, hd, hu⟩ := u.advance_cases
  · exact absurd hidle hbusy
  · have hnone : limbBitlen r.limb = 0 := limbBitlen_eq_zero.2 hr
    simp [hu, hwork, Work.remaining, hnone]
  · have hshift : limbBitlen (countIter r).limb + 1 = limbBitlen r.limb := limbBitlen_shrW_one_add_one hr
    simp [hu, hwork, Work.remaining, hshift]
  · simp [hu, hwork, Work.remaining, hd]
  · have hindex : (divIter d).i + 1 = d.i := Nat.sub_one_add_one hd
    simp [hu, hwork, Work.remaining, hindex]

/-- An internal step of a command in flight delivers one response if it is the last, and none if it is not. -/
theorem Dwu.delivered_advance {u : Dwu W} (hbusy : u.work ≠ .idle) :
    (u.advance.work = .idle → ∃ p, u.advance.delivered = u.delivered ++ [p]) ∧
      (u.advance.work ≠ .idle → u.advance.delivered = u.delivered) := by
  obtain ⟨hidle, -⟩ | ⟨r, -, -, hu⟩ | ⟨r, -, -, hu⟩ | ⟨d, -, -, hu⟩ | ⟨d, -, -, hu⟩ := u.advance_cases
  · exact absurd hidle hbusy
  all_goals simp [hu]

section
variable {u : Dwu W} (hinv : u.Inv)
include hinv

theorem Dwu.Inv.remaining_le_of_counting {r : CountRegs W} (hwork : u.work = .counting r) : u.work.remaining ≤ W + 1 := by
  have hbound := ((Dwu.inv_iff_of_counting hwork).1 hinv).count_add_limbBitlen_le
  rw [hwork, Work.remaining]
  omega

theorem Dwu.Inv.remaining_le_of_dividing {d : DivRegs W} (hwork : u.work = .dividing d) :
    u.work.remaining ≤ 2 * W + 1 := by
  have hindex := ((Dwu.inv_iff_of_dividing hwork).1 hinv).indexBound
  have hlen := d.dividend.bitLength_le
  rw [hwork, Work.remaining]
  omega

end

theorem remaining_countInit_le (x : DW W) : (Work.counting (countInit x)).remaining ≤ W + 1 :=
  Nat.succ_le_succ (limbBitlen_le _)

theorem remaining_divInit_le (x y : DW W) : (Work.dividing (divInit x y)).remaining ≤ 2 * W + 1 :=
  Nat.succ_le_succ x.bitLength_le

/-- The step that accepts a command leaves at most `2W + 1` steps to come, and delivers one response or none as it leaves the
unit idle or busy. -/
theorem step_accepts_bounded {w : Width} (u : Dwu w.bits) {c : Command w.bits} {rest : List (HostEvent w.bits)}
    (hidle : u.work = .idle) (hhost : u.host = .command c :: rest) :
    ∃ v : Dwu w.bits, step ⟨w, u⟩ = .next ⟨w, v⟩ ∧ v.work.remaining ≤ 2 * w.bits + 1 ∧
      (v.work = .idle → ∃ p, v.delivered = u.delivered ++ [p]) ∧ (v.work ≠ .idle → v.delivered = u.delivered) := by
  obtain h | ⟨-, h⟩ | ⟨-, -, h⟩ := step_responds_or_starts u hidle hhost <;> refine ⟨_, h, ?_⟩
  · simp [hidle, Work.remaining]
  · have hbound := remaining_countInit_le c.x
    refine ⟨?_, by simp, fun _ => rfl⟩
    rw [Dwu.work_withWork]
    omega
  · exact ⟨remaining_divInit_le c.x c.y, by simp, fun _ => rfl⟩

/-- Settles O14: the number of steps to come bounds what follows the accepting step, and each internal step lowers it. -/
theorem everyCommandEnds : Obligations.EveryCommandEnds := by
  refine ⟨exists_step_eq_next,
    fun w u hinv => ⟨fun r => hinv.remaining_le_of_counting, fun d => hinv.remaining_le_of_dividing⟩,
    fun w u c rest hidle hhost => step_accepts_bounded u hidle hhost, fun w u hbusy hreset => ?_⟩
  obtain ⟨h, hstep⟩ := step_busy_of_no_reset u hbusy hreset
  have hbusy' : (u.withHost h).work ≠ .idle := hbusy
  exact ⟨_, hstep, Dwu.remaining_advance_add_one hbusy', Work.remaining_eq_zero_iff _, Dwu.delivered_advance hbusy'⟩

end Machine
end Sys2Proof
end

section
/-! The host sequences (spec/47_derived_rendering.md R120 to R126): the loop of `toDecimalString` leads through the decimal
digits of the number, lowest first, and `toDebugHex` writes each limb by its hexadecimal digits. -/

namespace Sys2Proof.Machine

variable {W : Nat}

/-! ### The commands of the decimal loop (R120) -/

theorem respond_isnzCommand (v : DW W) : respond (isnzCommand v) = .ofBool v.nonzero :=
  respond_of_decode_some (i := .isnz) (decode_encode .isnz)

theorem nonzero_iff_val_ne_zero (v : DW W) : v.nonzero = true ↔ v.val ≠ 0 := by
  rw [DW.nonzero_eq_not_isZero, Bool.not_eq_true', DW.isZero_eq_false_iff]

/-- A limb of four bits or more holds ten, and then `DIVMOD` by it divides the number by ten. -/
theorem respond_divTenCommand (hW : 4 ≤ W) (v : DW W) :
    ∃ q r : DW W, respond (divTenCommand v) = .ok q r false ∧ q.val = v.val / 10 ∧ r.val = v.val % 10 := by
  have hten : (divTenCommand v).y.val = 10 := by
    have hfit : 10 < 2 ^ W := (by decide : 10 < 2 ^ 4).trans_le (Nat.pow_le_pow_right Nat.two_pos hW)
    have hlow : (10#W).toNat = 10 := Nat.mod_eq_of_lt hfit
    rw [DW.val_def, show (divTenCommand v).y = ⟨10#W, 0#W⟩ from rfl, hlow, BitVec.toNat_zero, Nat.zero_mul]
  have hdivmod : respond (divTenCommand v) = respondDivmod (divTenCommand v) :=
    respond_of_decode_some (i := .divmod) (decode_encode .divmod)
  rw [hdivmod, respondDivmod_of_isZero_eq_false ((DW.isZero_eq_false_iff _).2 (by omega))]
  have hlaw := val_divLoop (x := v) (y := (divTenCommand v).y) (by omega)
  rw [hten] at hlaw
  exact ⟨_, _, rfl, hlaw⟩

/-! ### The decimal loop and the digits (R120, R121) -/

/-- The loop ends at zero, whatever rounds are left. -/
theorem decimalLoop_of_val_eq_zero {v : DW W} (hv : v.val = 0) (k : Nat) (digits : List (Limb W)) :
    decimalLoop k v digits = digits := by
  have hflag : v.nonzero = false := by
    rw [← Bool.not_eq_true, nonzero_iff_val_ne_zero, not_not]
    exact hv
  cases k <;> simp [decimalLoop, respond_isnzCommand, Response.ofBool, hflag]

/-- A round on a value that is not zero appends its last digit and goes on with the number without it. -/
theorem decimalLoop_succ (hW : 4 ≤ W) {v : DW W} (hv : v.val ≠ 0) (k : Nat) (digits : List (Limb W)) :
    ∃ q : DW W, q.val = v.val / 10 ∧
      decimalLoop (k + 1) v digits = decimalLoop k q (digits ++ [BitVec.ofNat W (v.val % 10)]) := by
  obtain ⟨q, r, hdivmod, hq, hr⟩ := respond_divTenCommand hW v
  have hflag : v.nonzero = true := (nonzero_iff_val_ne_zero v).2 hv
  have hlow : r.low = BitVec.ofNat W (v.val % 10) :=
    BitVec.eq_of_toNat_eq (by rw [BitVec.toNat_ofNat, ← hr, DW.val_mod])
  exact ⟨q, hq, by simp [decimalLoop, respond_isnzCommand, Response.ofBool, hflag, hdivmod, hlow]⟩

/-- With as many rounds as the number has bits, the loop appends the decimal digits, lowest first. -/
theorem decimalLoop_eq_append_digits (hW : 4 ≤ W) (k : Nat) (v : DW W) (digits : List (Limb W)) (hv : v.val < 2 ^ k) :
    decimalLoop k v digits = digits ++ (Nat.digits 10 v.val).map (BitVec.ofNat W) := by
  induction k generalizing v digits with
  | zero =>
    have hzero : v.val = 0 := by omega
    simp [decimalLoop_of_val_eq_zero hzero, hzero]
  | succ k ih =>
    by_cases hzero : v.val = 0
    · simp [decimalLoop_of_val_eq_zero hzero, hzero]
    · obtain ⟨q, hq, hround⟩ := decimalLoop_succ hW hzero k digits
      have hdigits : Nat.digits 10 v.val = v.val % 10 :: Nat.digits 10 (v.val / 10) :=
        Nat.digits_def' (by decide) (Nat.pos_of_ne_zero hzero)
      rw [hround, ih q _ (by omega), hq, hdigits, List.map_cons, List.append_assoc, List.singleton_append]

/-- The digits of `toDecimalString`, as numbers, are those of the number denoted, highest first. -/
theorem map_toNat_decimalDigits (hW : 4 ≤ W) (x : DW W) :
    (decimalDigits x).map BitVec.toNat = (Nat.digits 10 x.val).reverse := by
  have hfit : 10 ≤ 2 ^ W := (by decide : 10 ≤ 2 ^ 4).trans (Nat.pow_le_pow_right Nat.two_pos hW)
  have hlimbs : (Nat.digits 10 x.val).map (BitVec.toNat ∘ BitVec.ofNat W) = Nat.digits 10 x.val :=
    (List.map_congr_left fun n hn => Nat.mod_eq_of_lt ((Nat.digits_lt_base (by decide) hn).trans_le hfit)).trans
      (List.map_id _)
  rw [decimalDigits, decimalLoop_eq_append_digits hW _ x [] x.val_lt, List.nil_append, List.map_reverse, List.map_map,
    hlimbs]

theorem toNat_lt_ten_of_mem_decimalDigits (hW : 4 ≤ W) {x : DW W} {d : Limb W} (hd : d ∈ decimalDigits x) :
    d.toNat < 10 := by
  have hmem : d.toNat ∈ (decimalDigits x).map BitVec.toNat := List.mem_map_of_mem hd
  rw [map_toNat_decimalDigits hW, List.mem_reverse] at hmem
  exact Nat.digits_lt_base (by decide) hmem

/-- The first digit is the highest of the number, which is not zero. -/
theorem toNat_ne_zero_of_decimalDigits_eq_cons (hW : 4 ≤ W) {x : DW W} {d : Limb W} {rest : List (Limb W)}
    (hd : decimalDigits x = d :: rest) : d.toNat ≠ 0 := by
  have hdigits : Nat.digits 10 x.val = (rest.map BitVec.toNat).reverse ++ [d.toNat] := by
    rw [← List.reverse_eq_cons_iff, ← map_toNat_decimalDigits hW, hd, List.map_cons]
  have hval : x.val ≠ 0 := fun hzero => by simp [hzero] at hdigits
  simpa [hdigits] using Nat.getLast_digit_ne_zero 10 hval

theorem decimalDigits_of_val_eq_zero {x : DW W} (hx : x.val = 0) : decimalDigits x = [] := by
  rw [decimalDigits, decimalLoop_of_val_eq_zero hx, List.reverse_nil]

theorem four_le_bits (w : Width) : 4 ≤ w.bits := by
  cases w <;> decide

/-- Settles O52: read as numbers, the digits are those of `Nat.digits`. -/
theorem decimalDigitsDenoteTheValue : Obligations.DecimalDigitsDenoteTheValue := by
  intro w x
  have hW := four_le_bits w
  refine ⟨fun d => toNat_lt_ten_of_mem_decimalDigits hW, ?_, fun d rest => toNat_ne_zero_of_decimalDigits_eq_cons hW,
    fun hx => ?_⟩
  · rw [map_toNat_decimalDigits hW, List.reverse_reverse, Nat.ofDigits_digits]
  · have hnone := decimalDigits_of_val_eq_zero hx
    exact ⟨hnone, by rw [toDecimalString, hnone, List.map_nil]⟩

theorem some_hexDigit_of_lt_ten : ∀ n < 10, some (hexDigit false n) = "0123456789".toList[n]? := by
  decide

/-- Settles O56: each digit is below ten. -/
theorem decimalTextSpellsTheDigits : Obligations.DecimalTextSpellsTheDigits := by
  intro w x
  rw [toDecimalString, List.map_map]
  exact List.map_congr_left fun d hd =>
    some_hexDigit_of_lt_ten d.toNat (toNat_lt_ten_of_mem_decimalDigits (four_le_bits w) hd)

/-! ### The number of decimal digits (R122) -/

theorem length_decimalDigits (hW : 4 ≤ W) (x : DW W) : (decimalDigits x).length = (Nat.digits 10 x.val).length := by
  rw [← List.length_map BitVec.toNat, map_toNat_decimalDigits hW, List.length_reverse]

/-- A value of `2W` bits has no more digits than a power of ten above them says. -/
theorem length_decimalDigits_le (hW : 4 ≤ W) {n : Nat} (hn : 2 ^ (2 * W) ≤ 10 ^ n) (x : DW W) :
    (decimalDigits x).length ≤ n := by
  rw [length_decimalDigits hW, Nat.digits_length_le_iff (by decide)]
  exact x.val_lt.trans_le hn

/-- The power of ten with `n` zeros, where `2W` bits hold it, has one digit more. -/
theorem lt_length_decimalDigits_pow (hW : 4 ≤ W) {n : Nat} (hn : 10 ^ n < 2 ^ (2 * W)) :
    n < (decimalDigits (DW.ofNat W (10 ^ n))).length := by
  rw [length_decimalDigits hW, Nat.lt_digits_length_iff (by decide), DW.val_ofNat, Nat.mod_eq_of_lt hn]

/-- Settles O53: `2^64` lies between `10^19` and `10^20`, and `2^128` between `10^38` and `10^39`. -/
theorem decimalDigitCount : Obligations.DecimalDigitCount := by
  have h32 (x : DW 32) : (decimalDigits x).length ≤ 20 := length_decimalDigits_le (by decide) (by decide) x
  have h64 (x : DW 64) : (decimalDigits x).length ≤ 39 := length_decimalDigits_le (by decide) (by decide) x
  exact ⟨h32, h64, ⟨_, le_antisymm (h32 _) (lt_length_decimalDigits_pow (n := 19) (by decide) (by decide))⟩,
    ⟨_, le_antisymm (h64 _) (lt_length_decimalDigits_pow (n := 38) (by decide) (by decide))⟩⟩

/-! ### The hexadecimal form (R125, R126) -/

/-- The lowest `n` hexadecimal digits of a number, highest first. -/
def hexDigits (m : Nat) : Nat → List Nat
  | 0 => []
  | k + 1 => m / 16 ^ k % 16 :: hexDigits m k

/-- A field spells the limb's lowest digits: a shift by `4k` divides by `16^k`. -/
theorem hexField_eq_map_hexDigits (upper : Bool) (v : Limb W) (n : Nat) :
    hexField upper v n = (hexDigits v.toNat n).map (hexDigit upper) := by
  induction n with
  | zero => rfl
  | succ k ih => rw [hexField, hexDigits, List.map_cons, ih, toNat_shrW, Nat.pow_mul]

@[simp] theorem length_hexDigits (m n : Nat) : (hexDigits m n).length = n := by
  induction n with
  | zero => rfl
  | succ k ih => rw [hexDigits, List.length_cons, ih]

theorem lt_of_mem_hexDigits {m n d : Nat} (hd : d ∈ hexDigits m n) : d < 16 := by
  induction n with
  | zero => cases hd
  | succ k ih =>
    obtain rfl | hd := List.mem_cons.1 hd
    · exact Nat.mod_lt _ (by decide)
    · exact ih hd

theorem ofDigits_reverse_hexDigits (m n : Nat) : Nat.ofDigits 16 (hexDigits m n).reverse = m % 16 ^ n := by
  induction n with
  | zero => rw [hexDigits, List.reverse_nil, Nat.ofDigits_nil, Nat.pow_zero, Nat.mod_one]
  | succ k ih =>
    rw [hexDigits, List.reverse_cons, Nat.ofDigits_append, ih, List.length_reverse, length_hexDigits,
      Nat.ofDigits_singleton, Nat.mod_pow_succ]

/-- At either width `W/4` digits hold the whole limb. -/
theorem ofDigits_hexDigits_limb (w : Width) (v : Limb w.bits) :
    Nat.ofDigits 16 (hexDigits v.toNat (w.bits / 4)).reverse = v.toNat := by
  have hwidth : 16 ^ (w.bits / 4) = 2 ^ w.bits := by cases w <;> decide
  rw [ofDigits_reverse_hexDigits, hwidth, Nat.mod_eq_of_lt v.isLt]

/-- Settles O54: each field spells the hexadecimal digits of its limb. -/
theorem debugHexShowsBothLimbs : Obligations.DebugHexShowsBothLimbs := by
  refine ⟨fun w x upper => ⟨hexDigits x.high.toNat (w.bits / 4), hexDigits x.low.toNat (w.bits / 4), ?_,
    length_hexDigits _ _, length_hexDigits _ _, fun _ => lt_of_mem_hexDigits, fun _ => lt_of_mem_hexDigits,
    ofDigits_hexDigits_limb w x.high, ofDigits_hexDigits_limb w x.low⟩, by decide, by decide⟩
  rw [toDebugHex, hexField_eq_map_hexDigits, hexField_eq_map_hexDigits]

end Sys2Proof.Machine
end
